-- ==== Sys2Proof/Word.lean ====
section
/-! DEFINITION. Bytes, nibbles and vectors of byte lanes (00_scope.md R6, R9, R10). -/

namespace Sys2Proof

/-- A byte: 8 bits, bit 0 the least significant; always unsigned (R9). -/
abbrev Byte := BitVec 8

/-- A nibble: a 4-bit half of one byte, used as a table index (R6). -/
abbrev Nibble := BitVec 4

/-- A vector: its lanes in stream order, lane 0 first (R9, R63). The width is the list's length. -/
abbrev Vec := List Byte

/-- `ALL_ONES`, the lane value of a MatchVector that says "the condition holds" (R10). -/
abbrev allOnes : Byte := 0xFF#8

/-- `ALL_ZERO`, the lane value of a MatchVector that says "the condition does not hold" (R10). -/
abbrev allZero : Byte := 0x00#8

/-- A group: 16 consecutive lanes, the domain of one table lookup (R6). -/
abbrev groupLanes : Nat := 16

/-- A sub-lane: 64 bits, 8 consecutive lanes, the domain of the 4-bit shift (R6). -/
abbrev subLaneLanes : Nat := 8

end Sys2Proof
end

