-- ==== Sys2Proof/Config.lean ====
section
/-! DEFINITION. The configuration of an instance (00_scope.md R5, R7, R8; 10_state.md R23). No operation changes it. -/

namespace Sys2Proof

/-- The legal values of `S` (R5). No other width can be written down: decision D27 refuses to build it. -/
inductive LaneWidth where
  | w16
  | w32
  | w64
  deriving DecidableEq, Repr

/-- `S`, the number of byte lanes of a vector (R5). -/
def LaneWidth.bytes : LaneWidth → Nat
  | .w16 => 16
  | .w32 => 32
  | .w64 => 64

/-- The width of a given `S`, where `S` is legal (R5, decision D27). -/
def LaneWidth.ofNat? (n : Nat) : Option LaneWidth :=
  if n = 16 then some .w16 else if n = 32 then some .w32 else if n = 64 then some .w64 else none

/-- `BACKEND` (R7). -/
inductive Backend where
  | hwSpecific
  | portable
  deriving DecidableEq, Repr

/-- Which operand AND-NOT complements (R8, R92). -/
inductive AndNotOrder where
  | complementFirst
  | complementSecond
  deriving DecidableEq, Repr, Inhabited

/-- The configuration triple `(S, BACKEND, FEATURE_PRESENT)`, fixed for the life of the instance (R23). -/
structure Config where
  width : LaneWidth
  backend : Backend
  featurePresent : Bool
  deriving DecidableEq, Repr

/-- Building a configuration from a number of lanes; refused (none) for an illegal `S` (R5, decision D27). -/
def Config.build? (lanes : Nat) (backend : Backend) (featurePresent : Bool) : Option Config :=
  (LaneWidth.ofNat? lanes).map fun w => { width := w, backend := backend, featurePresent := featurePresent }

/-- The configuration that `State.reset` and `decodeTableWord` use: the start of program P1 of
95_test_vectors.md. DESIGN CHOICE, unsafe (log entry 1): the spec leaves the configuration open. -/
def Config.initial : Config := { width := .w16, backend := .hwSpecific, featurePresent := true }

/-- `ANDNOT_ORDER`, an open parameter that no operation can reach (R8, R92, decision D17; log entry 9). -/
opaque Config.andnotOrder : AndNotOrder

end Sys2Proof
end

