-- ==== Sys2Proof/Syntax.lean ====
section
/-! DEFINITION. The operations of the block, their formats and names (30_encoding.md R60, R61, R72; opcode_table.json). -/

namespace Sys2Proof

/-- The three operations (R60). Every operand is a whole vector carried by value (R68). -/
inductive Instr where
  /-- `st <- CHKCAP` (R80). -/
  | chkcap
  /-- `mv <- CLASSIFY maskLow, maskHigh, chars` (R112). -/
  | classify (maskLow maskHigh chars : Vec)
  /-- `mv, carryOut <- CLASSIFY_PAIR mask1Low, mask1High, mask2Low, mask2High, carryIn, chars` (R122). -/
  | classifyPair (mask1Low mask1High mask2Low mask2High carryIn chars : Vec)
  deriving DecidableEq, Repr

/-- The request formats (R61). -/
inductive Format where
  | k
  | v3
  | v6
  deriving DecidableEq, Repr

/-- How many vector operands a request of the format carries (R61, R65, R66). -/
def Format.operandCount : Format → Nat
  | .k => 0
  | .v3 => 3
  | .v6 => 6

/-- The length in bytes of a request of the format (R61). -/
def Format.requestLength (f : Format) (w : LaneWidth) : Nat := 1 + f.operandCount * w.bytes

/-- The length in bytes of a response to a request of the format (R61). -/
def Format.responseLength (f : Format) (w : LaneWidth) : Nat :=
  match f with
  | .k => 1
  | .v3 => w.bytes
  | .v6 => 2 * w.bytes

/-- The format of an operation (R61). -/
def Instr.format : Instr → Format
  | .chkcap => .k
  | .classify _ _ _ => .v3
  | .classifyPair _ _ _ _ _ _ => .v6

/-- The mnemonic of an operation (R60, decision D11). -/
def Instr.mnemonic : Instr → String
  | .chkcap => "CHKCAP"
  | .classify _ _ _ => "CLASSIFY"
  | .classifyPair _ _ _ _ _ _ => "CLASSIFY_PAIR"

/-- The vector operands of an operation, in the order of the request (R65, R66). -/
def Instr.operands : Instr → List Vec
  | .chkcap => []
  | .classify maskLow maskHigh chars => [maskLow, maskHigh, chars]
  | .classifyPair mask1Low mask1High mask2Low mask2High carryIn chars =>
      [mask1Low, mask1High, mask2Low, mask2High, carryIn, chars]

/-- The mask operands of an operation: those that must be tiled (R110, R120). -/
def Instr.masks : Instr → List Vec
  | .chkcap => []
  | .classify maskLow maskHigh _ => [maskLow, maskHigh]
  | .classifyPair mask1Low mask1High mask2Low mask2High _ _ => [mask1Low, mask1High, mask2Low, mask2High]

/-- Why a request does not decode: the two `invalid` outcomes of R71. -/
inductive InvalidRequest where
  /-- Byte 0 is none of the three opcodes (R69). -/
  | reservedOpcode
  /-- The length is not the one R61 gives for the opcode and `S`, or the request is empty (R70, R71). -/
  | badLength
  deriving DecidableEq, Repr

/-- What decoding a request answers (R71): an operation, or `invalid` with its reason. -/
inductive Decoded where
  | instr (i : Instr)
  | invalid (reason : InvalidRequest)
  deriving DecidableEq, Repr

end Sys2Proof
end

