-- ==== Sys2Proof/WellFormed.lean ====
section
/-! DEFINITION. When an operation can be sent to an instance of width `S`: every operand has exactly `S` lanes
(30_encoding.md R63, R70). That masks are tiled is no matter of form: the meanings check it (R110, R120). -/

namespace Sys2Proof

/-- A vector of the instance's width (R9, R63). -/
def Vec.hasWidth (w : LaneWidth) (v : Vec) : Bool := v.length == w.bytes

/-- Every operand of the operation has the instance's width (R63, R70). -/
def Instr.wellFormed (w : LaneWidth) (i : Instr) : Bool := i.operands.all (Vec.hasWidth w)

end Sys2Proof
end

