-- ==== Sys2Proof/Decode.lean ====
section
/-! DEFINITION. Decoding a request, total on any bytes and rejecting by name (30_encoding.md R62 to R71), and the encoder. -/

namespace Sys2Proof

/-- The opcode byte of each format's one operation (R62). -/
def opcodeOf : Format → Byte
  | .k => 0x00#8
  | .v3 => 0x01#8
  | .v6 => 0x02#8

/-- The format that byte 0 of a request selects; none where the opcode is reserved (R62, R69). -/
def formatOfOpcode (b : Byte) : Option Format :=
  if b = 0x00#8 then some .k
  else if b = 0x01#8 then some .v3
  else if b = 0x02#8 then some .v6
  else none

/-- Operand number `k` of a payload, the bytes after the opcode: `S` bytes at offset `k*S` (R63, R65, R66). -/
def payloadOperand (w : LaneWidth) (payload : List Byte) (k : Nat) : Vec :=
  (payload.drop (k * w.bytes)).take w.bytes

/-- The operation a payload of the right length carries (R64, R65, R66). -/
def assemble (w : LaneWidth) (payload : List Byte) : Format → Instr
  | .k => .chkcap
  | .v3 => .classify (payloadOperand w payload 0) (payloadOperand w payload 1) (payloadOperand w payload 2)
  | .v6 => .classifyPair (payloadOperand w payload 0) (payloadOperand w payload 1) (payloadOperand w payload 2)
      (payloadOperand w payload 3) (payloadOperand w payload 4) (payloadOperand w payload 5)

/-- `decode(S, bytes)`: byte 0 first, then the length (R71, R157). -/
def decode (w : LaneWidth) (request : List Byte) : Decoded :=
  match request with
  | [] => .invalid .badLength
  | opcode :: payload =>
    match formatOfOpcode opcode with
    | none => .invalid .reservedOpcode
    | some f =>
      if payload.length + 1 = f.requestLength w then .instr (assemble w payload f) else .invalid .badLength

/-- The request bytes of an operation: the opcode, then the operands in order, lane 0 first (R61 to R66). -/
def encode (i : Instr) : List Byte := opcodeOf i.format :: i.operands.flatten

/-- The operation a request decodes to, where it decodes. -/
def Decoded.instr? : Decoded → Option Instr
  | .instr i => some i
  | .invalid _ => none

/-- The low `n` bytes of a number, the lowest first: the bytes of an opcode-table word in request order. -/
def tableWordBytes : Nat → Nat → List Byte
  | 0, _ => []
  | n + 1, x => BitVec.ofNat 8 x :: tableWordBytes n (x / 256)

/-- The request an opcode-table word stands for on an instance of width `w`: the bytes the table gives, then zero
bytes up to the length R61 gives the opcode (log entry 13). -/
def requestOfTableWord (w : LaneWidth) (nbits x : Nat) : List Byte :=
  match tableWordBytes ((nbits + 7) / 8) x with
  | [] => []
  | opcode :: rest =>
    match formatOfOpcode opcode with
    | none => opcode :: rest
    | some f => opcode :: rest ++ List.replicate (f.requestLength w - (rest.length + 1)) 0x00#8

/-- The operation the decoder reads from an opcode-table word, at the width of `Config.initial` (log entry 13). -/
def decodeTableWord (nbits w : Nat) : Option Instr :=
  (decode Config.initial.width (requestOfTableWord Config.initial.width nbits w)).instr?

end Sys2Proof
end

