-- ==== Sys2Proof/Machine/State.lean ====
section
/-! DEFINITION. The state of an instance and of its host, the faults and refusals, and reset (10_state.md; 60_exceptions.md). -/

namespace Sys2Proof.Machine

/-- The result of the capability query (30_encoding.md R67, 40_platform_capability.md R80). -/
inductive Status where
  | success
  | archError
  deriving DecidableEq, Repr

/-- What the host has learned from `CHKCAP` (10_state.md R28). -/
inductive Gate where
  | unchecked
  | passed
  | failed
  deriving DecidableEq, Repr

/-- The response of an operation (00_scope.md R11, 30_encoding.md R61). -/
inductive Response where
  /-- The status `CHKCAP` answers (R64). -/
  | status (st : Status)
  /-- The MatchVector `CLASSIFY` answers (R65). -/
  | matchVector (mv : Vec)
  /-- The MatchVector and the carryOut `CLASSIFY_PAIR` answers (R66). -/
  | pair (result carryOut : Vec)
  deriving DecidableEq, Repr

/-- What the host does to the instance (R13): it issues a request, or one of the events of a stream context
(44_stream_protocol.md R137), or it re-creates the instance (10_state.md R34). -/
inductive HostAction where
  /-- Issue a request: any byte string (30_encoding.md R61). -/
  | issue (request : List Byte)
  /-- Stream start: the stream's `carry <- NEUTRAL` (R137). -/
  | startStream (stream : Nat)
  /-- Pair step: issue `CLASSIFY_PAIR` with the stream's carry, then `carry <- carryOut` (R137). -/
  | pairStep (stream : Nat) (mask1Low mask1High mask2Low mask2High block : Vec)
  /-- Stream end: the stream's carry is discarded (R137). -/
  | endStream (stream : Nat)
  /-- Power-on or re-creation of the instance (R34, R170). -/
  | resetBlock
  deriving DecidableEq, Repr

/-- Why a step faults. No operation of the block faults (R11, R153): these name misuse of the model's own operations. -/
inductive Fault where
  /-- A staging-buffer access outside `0 .. 2S-1` (20_memory.md R46). Raised by `Memory.readByte` and `Memory.store`;
  no operation reaches it. Safe: the model stops. -/
  | stgNoAddress (address : Nat)
  /-- A read of a staging-buffer byte that holds no value (93_implementation_defined.md U5). Raised by
  `Memory.readByte`; no operation reaches it. Safe: the model stops instead of choosing a value. -/
  | stgUnwritten (address : Nat)
  /-- A host pair step on a stream that is not open, so there is no carryIn to send (R137; log entry 6). Raised by
  `performPairStep`. Safe: the model stops. -/
  | noCarry (stream : Nat)
  deriving DecidableEq, Repr

/-- The closed list of refusal reasons (60_exceptions.md R156), and the host's own `notModelled`. Each is safe: a
refusal claims nothing about the hardware. -/
inductive Refusal where
  /-- Byte 0 of the request is `0x03 .. 0xFF` (R69). Raised by `submit`. Safe. -/
  | reservedOpcode
  /-- The length of the request, or of an operand, is wrong (R70). Raised by `submit` and by the matchers. Safe. -/
  | badLength
  /-- A matcher request while `gate` is not `PASSED` (R83). Raised by the matchers. Safe. -/
  | capabilityNotEstablished
  /-- A mask operand is not tiled (R110, R120). Raised by the matchers. Safe. -/
  | tableNotTiled
  /-- An instruction without a meaning yet; no arm of `exec` answers it. Safe. -/
  | notModelled (mnemonic : String)
  deriving DecidableEq, Repr

/-- The staging buffer: the bytes that hold a value, addresses strictly rising (10_state.md R26). -/
abbrev Memory := List Host.Cell

/-- The host's stream contexts: the carry of each open stream, stream numbers strictly rising (10_state.md R29). -/
abbrev Carries := List (Nat × Vec)

/-- An instance of the block, with what the model keeps beside it. -/
structure State where
  /-- The configuration of the instance (R23); nothing changes it. -/
  cfg : Config
  /-- The protocol variable `gate` (R28). -/
  gate : Gate
  /-- The staging buffer `STG` (R26). -/
  stg : Memory
  /-- The CarryState of each open stream, held by the host (R29). -/
  carries : Carries
  /-- The MODEL's own field: what the host does next, in order (R21, R176; log entry 3). -/
  pending : List HostAction
  /-- The MODEL's own field: the responses delivered, oldest first (R14; log entry 4). -/
  responses : List Response
  deriving DecidableEq, Repr

/-- An instance of the given configuration right after power-on (R34, R170). -/
def State.powerOn (c : Config) : State :=
  { cfg := c, gate := .unchecked, stg := [], carries := [], pending := [], responses := [] }

/-- The machine right after reset, for the configuration `Config.initial` (log entry 1). -/
def State.reset : State := State.powerOn Config.initial

end Sys2Proof.Machine
end

