-- ==== Sys2Proof/Machine/Ops.lean ====
section
/-! DEFINITION. The named operations over the state: key-sorted lists, the staging buffer, the carries, the gate, the
responses and reset. The block has no registers (10_state.md R20) and takes no exception: there is no saved pc, no
status word, no vector and no return (60_exceptions.md R153, R159), so there is no exception entry to write. -/

namespace Sys2Proof.Machine

/-! ### Lists of keyed entries in one canonical form: keys strictly rising -/

/-- The first entry with the key. -/
def findKey {α : Type} (key : Nat) : List (Nat × α) → Option α
  | [] => none
  | (k, v) :: rest => if k = key then some v else findKey key rest

/-- Sets the entry of a key, keeping the keys rising. -/
def setKey {α : Type} (key : Nat) (value : α) : List (Nat × α) → List (Nat × α)
  | [] => [(key, value)]
  | (k, v) :: rest =>
    if key < k then (key, value) :: (k, v) :: rest
    else if key = k then (key, value) :: rest
    else (k, v) :: setKey key value rest

/-- Removes the entries of a key. -/
def eraseKey {α : Type} (key : Nat) : List (Nat × α) → List (Nat × α)
  | [] => []
  | (k, v) :: rest => if k = key then eraseKey key rest else (k, v) :: eraseKey key rest

/-- The canonical form: keys strictly rising. -/
def keysRise {α : Type} : List (Nat × α) → Bool
  | [] => true
  | (k, _) :: rest => rest.all (fun e => decide (k < e.1)) && keysRise rest

/-! ### The staging buffer `STG` (20_memory.md) -/

/-- The canonical form of the staging buffer. An unlisted byte has no value (log entry 2), so no entry is redundant. -/
def Memory.wf (m : Memory) : Bool := keysRise m

/-- The number of bytes of the staging buffer (R26, R40). -/
def stagingBytes (w : LaneWidth) : Nat := 2 * w.bytes

/-- One byte of the staging buffer: no value where nothing was stored (log entry 2). -/
def Memory.byteAt (m : Memory) (address : Nat) : Option Byte := findKey address m

/-- Reading one byte, with the faults of an address that does not exist and of a byte without a value. -/
def Memory.readByte (w : LaneWidth) (address : Nat) (m : Memory) : Except Fault Byte :=
  if address < stagingBytes w then
    match m.byteAt address with
    | some b => .ok b
    | none => .error (.stgUnwritten address)
  else .error (.stgNoAddress address)

/-- `MemRead(addr, n)`: lowest address first (00_scope.md R10). -/
def Memory.read (w : LaneWidth) (address : Nat) : Nat → Memory → Except Fault Vec
  | 0, _ => .ok []
  | n + 1, m =>
    match Memory.readByte w address m with
    | .error f => .error f
    | .ok b =>
      match Memory.read w (address + 1) n m with
      | .error f => .error f
      | .ok rest => .ok (b :: rest)

/-- The bytes of `v` placed from `addr` on, `v[0]` at `addr` (R10, R41). -/
def Memory.place (address : Nat) : Vec → Memory → Memory
  | [], m => m
  | b :: rest, m => Memory.place (address + 1) rest (setKey address b m)

/-- `MemWrite(addr, n, v)` for a vector `v` of `n` bytes, inside `0 .. 2S-1` (R10, R46). -/
def Memory.store (w : LaneWidth) (address : Nat) (v : Vec) (m : Memory) : Except Fault Memory :=
  if address + v.length ≤ stagingBytes w then .ok (Memory.place address v m)
  else .error (.stgNoAddress address)

/-! ### The parts of the state -/

/-- Delivers a response (30_encoding.md R61): it is the newest of those delivered. -/
def State.respond (r : Response) (s : State) : State := { s with responses := s.responses ++ [r] }

/-- Sets the protocol variable (40_platform_capability.md R82). -/
def State.setGate (g : Gate) (s : State) : State := { s with gate := g }

/-- Sets the contents of the staging buffer. -/
def State.setStg (m : Memory) (s : State) : State := { s with stg := m }

/-- Sets what the host does next. -/
def State.setPending (p : List HostAction) (s : State) : State := { s with pending := p }

/-- The carry of a stream, where the stream is open (10_state.md R29). -/
def State.carryOf (stream : Nat) (s : State) : Option Vec := findKey stream s.carries

/-- `carry <- v` for a stream (44_stream_protocol.md R137). -/
def State.setCarry (stream : Nat) (v : Vec) (s : State) : State :=
  { s with carries := setKey stream v s.carries }

/-- The stream's carry is discarded (44_stream_protocol.md R137). -/
def State.dropCarry (stream : Nat) (s : State) : State :=
  { s with carries := eraseKey stream s.carries }

/-- Reset of the instance (10_state.md R34, 70_reset_and_hazards.md R170, R171): the configuration stays, `gate` is
`UNCHECKED`, no byte of the staging buffer has a value; what the host holds stays (log entry 11). -/
def State.resetInstance (s : State) : State := { s with gate := .unchecked, stg := [] }

/-- The byte string of a status (30_encoding.md R67). -/
def Status.byte : Status → Byte
  | .success => 0x00#8
  | .archError => 0x01#8

/-- The response as a byte string (30_encoding.md R61, R64, R65, R66). -/
def Response.bytes : Response → List Byte
  | .status st => [st.byte]
  | .matchVector mv => mv
  | .pair result carryOut => result ++ carryOut

end Sys2Proof.Machine
end

