-- ==== Sys2Proof/Machine/VectorLane.lean ====
section
/-! DEFINITION. VectorLane<S>: the vector primitives (41_vector_lane_primitives.md R90 to R101), but for the two lane
comparisons, which stand in Flags.lean. They are not operations a host can issue (30_encoding.md R60). -/

namespace Sys2Proof.Machine

/-- `v[i]`: lane `i` of a vector (00_scope.md R9). A vector has no lane past its width; the model reads zero there
and no operation on operands of the instance's width looks there (log entry 12). -/
def lane (v : Vec) (i : Nat) : Byte := v.getD i 0x00#8

/-- The vector of `n` lanes whose lane `i` is `f i`. -/
def buildVec (n : Nat) (f : Nat → Byte) : Vec := (List.range n).map f

/-- `broadcast(b)` (R96). -/
def broadcast (w : LaneWidth) (b : Byte) : Vec := buildVec w.bytes fun _ => b

/-- `ONES_S` (00_scope.md R10). -/
def onesVec (w : LaneWidth) : Vec := broadcast w allOnes

/-- `ZERO_S` (00_scope.md R10). -/
def zeroVec (w : LaneWidth) : Vec := broadcast w allZero

/-- `vand(a, b)` (R90). -/
def vand (a b : Vec) : Vec := List.zipWith (fun x y => x &&& y) a b

/-- `vor(a, b)` (R91); no operation uses it. -/
def vor (a b : Vec) : Vec := List.zipWith (fun x y => x ||| y) a b

/-- `vandnot(a, b)` for a given order of complementing (R92); no operation uses it. -/
def vandnotBy (order : AndNotOrder) (a b : Vec) : Vec :=
  match order with
  | .complementFirst => List.zipWith (fun x y => (~~~x) &&& y) a b
  | .complementSecond => List.zipWith (fun x y => x &&& (~~~y)) a b

/-- `vandnot(a, b)` with the open parameter `ANDNOT_ORDER` (R92; log entry 9). -/
def vandnot (a b : Vec) : Vec := vandnotBy Config.andnotOrder a b

/-- The 64-bit integer `w_k` of sub-lane `k`, lane `8k` least significant (R42, R95, decision D15). -/
def subLaneWord (a : Vec) (k : Nat) : BitVec 64 :=
  BitVec.ofNat 64 <|
    (lane a (8 * k)).toNat + (lane a (8 * k + 1)).toNat * 256 ^ 1 + (lane a (8 * k + 2)).toNat * 256 ^ 2
      + (lane a (8 * k + 3)).toNat * 256 ^ 3 + (lane a (8 * k + 4)).toNat * 256 ^ 4
      + (lane a (8 * k + 5)).toNat * 256 ^ 5 + (lane a (8 * k + 6)).toNat * 256 ^ 6
      + (lane a (8 * k + 7)).toNat * 256 ^ 7

/-- `shr4_64(a)`: a logical right shift by 4 inside each 64-bit sub-lane (R95). -/
def shr4_64 (a : Vec) : Vec :=
  buildVec a.length fun i =>
    ((subLaneWord a (i / subLaneLanes) >>> 4) >>> (8 * (i % subLaneLanes))).setWidth 8

/-- A vector of table indices taken from the low four bits of each lane; exact on lanes up to 15, which is all the
block looks up (R97, decision D16; log entry 8). -/
def nibbleIndices (v : Vec) : List Nibble := v.map fun b => b.setWidth 4

/-- `lookup16(m, idx)`: lane `i` selects among the 16 bytes of its own group (R97). -/
def lookup16 (m : Vec) (idx : List Nibble) : Vec :=
  buildVec idx.length fun i => lane m (groupLanes * (i / groupLanes) + (idx.getD i 0#4).toNat)

/-- `vload(addr)`: `S` bytes of the staging buffer; no alignment is required (R99, 20_memory.md R44). -/
def vload (w : LaneWidth) (address : Nat) (m : Memory) : Except Fault Vec := Memory.read w address w.bytes m

/-- `vstore(addr, v)` (R100). -/
def vstore (w : LaneWidth) (address : Nat) (v : Vec) (m : Memory) : Except Fault Memory :=
  Memory.store w address v m

end Sys2Proof.Machine
end

