-- ==== Sys2Proof/Machine/Flags.lean ====
section
/-! DEFINITION. The block has no status flag, condition code or predicate register (10_state.md R22): no operation
writes one. The only conditions it computes are the two per-lane comparisons, whose results are data. -/

namespace Sys2Proof.Machine

/-- A condition broadcast to a full lane (41_vector_lane_primitives.md R93). -/
def laneOfBool (c : Bool) : Byte := if c then allOnes else allZero

/-- `eq_zero(a)`: equality to zero, per lane (R93). -/
def eqZero (a : Vec) : Vec := a.map fun b => laneOfBool (b == 0x00#8)

/-- `eq_ones(a)`: equality to all-ones, per lane (R94). -/
def eqOnes (a : Vec) : Vec := a.map fun b => laneOfBool (b == 0xFF#8)

/-- `isMatchVector(v)`: every lane is `0x00` or `0xFF` (00_scope.md R12). -/
def isMatchVector (v : Vec) : Bool := v.all fun b => b == allZero || b == allOnes

end Sys2Proof.Machine
end

