-- ==== Sys2Proof/Machine/Operands.lean ====
section
/-! DEFINITION. The operand forms: tiled tables and the checks a matcher's operands must pass (00_scope.md R12;
42_single_class_matcher.md R110; 43_double_class_matcher.md R120; 60_exceptions.md R157). -/

namespace Sys2Proof.Machine

/-- `tiled(m)`: every lane equals the lane of the same number in group 0 (R12). -/
def tiled (m : Vec) : Bool := (List.range m.length).all fun i => lane m i == lane m (i % groupLanes)

/-- `table(m)`: the 16 entries of a tiled vector (R12). -/
def tableOf (m : Vec) : Vec := buildVec groupLanes fun n => lane m n

/-- `tile_S(T)`: the 16 entries repeated over the vector (R12). -/
def tile (w : LaneWidth) (table : Vec) : Vec := buildVec w.bytes fun i => lane table (i % groupLanes)

/-- The first check of R157 that a matcher operation fails, where it fails one: the width of its operands (R70), the
gate (R83), the tiling of its masks (R110, R120). -/
def matcherRefusal (i : Instr) (s : State) : Option Refusal :=
  if i.wellFormed s.cfg.width then
    if s.gate = .passed then
      if i.masks.all tiled then none else some .tableNotTiled
    else some .capabilityNotEstablished
  else some .badLength

end Sys2Proof.Machine
end

