-- ==== Sys2Proof/Machine/SingleClassMatcher.lean ====
section
/-! DEFINITION. SingleClassMatcher: `CLASSIFY` (42_single_class_matcher.md R110 to R116). -/

namespace Sys2Proof.Machine

/-- `classOf(TL, TH)`: whether a byte is a member of the class that two 16-entry tables encode (R113). -/
def classOf (low high : Vec) (b : Byte) : Bool :=
  (lane low (b &&& 0x0F#8).toNat &&& lane high (b >>> 4).toNat) == 0x00#8

/-- The data path of `CLASSIFY`, step by step, without its precondition check (R112). -/
def classifyFn (w : LaneWidth) (maskLow maskHigh chars : Vec) : Vec :=
  let low4 := broadcast w 0x0F#8
  let idxLo := vand chars low4
  let sh := shr4_64 chars
  let idxHi := vand sh low4
  let cLo := lookup16 maskLow (nibbleIndices idxLo)
  let cHi := lookup16 maskHigh (nibbleIndices idxHi)
  let t := vand cLo cHi
  eqZero t

/-- `CLASSIFY maskLow, maskHigh, chars` (R110, R112). -/
def execClassify (maskLow maskHigh chars : Vec) (s : State) : Host.Outcome State Fault Refusal :=
  match matcherRefusal (.classify maskLow maskHigh chars) s with
  | some r => .refused r
  | none => .next (s.respond (.matchVector (classifyFn s.cfg.width maskLow maskHigh chars)))

end Sys2Proof.Machine
end

