-- ==== Sys2Proof/Machine/DoubleClassMatcher.lean ====
section
/-! DEFINITION. DoubleClassMatcher: `CLASSIFY_PAIR` (43_double_class_matcher.md R120 to R128). -/

namespace Sys2Proof.Machine

/-- Step 3: store carryIn, store c1, load the window at `S - 1`, in this order (R123, 20_memory.md R40, R48). Answers
the shifted vector and the staging buffer afterwards. -/
def stagingShift (w : LaneWidth) (carryIn c1 : Vec) (m : Memory) : Except Fault (Vec × Memory) :=
  match vstore w 0 carryIn m with
  | .error f => .error f
  | .ok m1 =>
    match vstore w w.bytes c1 m1 with
    | .error f => .error f
    | .ok m2 =>
      match vload w (w.bytes - 1) m2 with
      | .error f => .error f
      | .ok offsetC1 => .ok (offsetC1, m2)

/-- Step 4: the lanes where the shifted first-byte candidates and the second-byte candidates are both all-ones (R122, R127). -/
def pairLanes (offsetC1 c2 : Vec) : Vec := eqOnes (vand offsetC1 c2)

/-- `CLASSIFY_PAIR mask1Low, mask1High, mask2Low, mask2High, carryIn, chars` (R120, R122). -/
def execClassifyPair (mask1Low mask1High mask2Low mask2High carryIn chars : Vec) (s : State) :
    Host.Outcome State Fault Refusal :=
  match matcherRefusal (.classifyPair mask1Low mask1High mask2Low mask2High carryIn chars) s with
  | some r => .refused r
  | none =>
    let c1 := classifyFn s.cfg.width mask1Low mask1High chars
    let c2 := classifyFn s.cfg.width mask2Low mask2High chars
    match stagingShift s.cfg.width carryIn c1 s.stg with
    | .error f => .fault f
    | .ok (offsetC1, stg) => .next ((s.setStg stg).respond (.pair (pairLanes offsetC1 c2) c1))

end Sys2Proof.Machine
end

