-- ==== Sys2Proof/Machine/PlatformCapability.lean ====
section
/-! DEFINITION. PlatformCapability: `CHKCAP` (40_platform_capability.md R80 to R84). -/

namespace Sys2Proof.Machine

/-- The status `CHKCAP` answers on a configuration (R80). -/
def capabilityStatus (c : Config) : Status :=
  match c.backend with
  | .portable => .success
  | .hwSpecific => if c.featurePresent then .success else .archError

/-- What the host learns from a status (R82). -/
def gateOfStatus : Status → Gate
  | .success => .passed
  | .archError => .failed

/-- `CHKCAP`: answers the status (R80) and updates the protocol variable (R82); never refused. -/
def execChkcap (s : State) : Host.Outcome State Fault Refusal :=
  .next ((s.setGate (gateOfStatus (capabilityStatus s.cfg))).respond (.status (capabilityStatus s.cfg)))

end Sys2Proof.Machine
end

