-- ==== Sys2Proof/Machine/Dispatch.lean ====
section
/-! DEFINITION. One arm per operation of the block (30_encoding.md R60). -/

namespace Sys2Proof.Machine

def exec (i : Instr) (s : State) : Host.Outcome State Fault Refusal :=
  match i with
  | .chkcap => Sys2Proof.Machine.execChkcap s
  | .classify ml mh ch => Sys2Proof.Machine.execClassify ml mh ch s
  | .classifyPair ml1 mh1 ml2 mh2 ci ch => Sys2Proof.Machine.execClassifyPair ml1 mh1 ml2 mh2 ci ch s

end Sys2Proof.Machine
end

