-- ==== Sys2Proof/Machine/Stream.lean ====
section
/-! DEFINITION. Requests reaching the block, and the host's side of the stream protocol (30_encoding.md R61, R69 to R73;
44_stream_protocol.md R135 to R146). -/

namespace Sys2Proof.Machine

/-- The refusal of a request that does not decode (R69, R70). -/
def refusalOfInvalid : InvalidRequest → Refusal
  | .reservedOpcode => .reservedOpcode
  | .badLength => .badLength

/-- A request reaches the block: it is decoded and, where it decodes, executed (R61, R157). -/
def submit (request : List Byte) (s : State) : Host.Outcome State Fault Refusal :=
  match decode s.cfg.width request with
  | .invalid e => .refused (refusalOfInvalid e)
  | .instr i => exec i s

/-- `NEUTRAL`, the carry at stream start (R73, R136). -/
def neutralCarry (w : LaneWidth) : Vec := zeroVec w

/-- The carryOut of the newest response, where that is a pair response. -/
def newestCarryOut (s : State) : Option Vec :=
  match s.responses.getLast? with
  | some (.pair _ carryOut) => some carryOut
  | _ => none

/-- The pair step of a stream: `CLASSIFY_PAIR` with the stream's carry, then `carry <- carryOut`, whether or not the
result has a hit (R137). A stream that is not open has no carry to send (log entry 6). -/
def performPairStep (stream : Nat) (mask1Low mask1High mask2Low mask2High block : Vec) (s : State) :
    Host.Outcome State Fault Refusal :=
  match s.carryOf stream with
  | none => .fault (.noCarry stream)
  | some carry =>
    match submit (encode (.classifyPair mask1Low mask1High mask2Low mask2High carry block)) s with
    | .fault f => .fault f
    | .refused r => .refused r
    | .next t =>
      match newestCarryOut t with
      | some carryOut => .next (t.setCarry stream carryOut)
      | none => .next t

/-- One action of the host (00_scope.md R13, R137, R34). -/
def perform (a : HostAction) (s : State) : Host.Outcome State Fault Refusal :=
  match a with
  | .issue request => submit request s
  | .startStream stream => .next (s.setCarry stream (neutralCarry s.cfg.width))
  | .pairStep stream mask1Low mask1High mask2Low mask2High block =>
      performPairStep stream mask1Low mask1High mask2Low mask2High block s
  | .endStream stream => .next (s.dropCarry stream)
  | .resetBlock => .next s.resetInstance

/-- `STREAM_PAIR`: stream start, a pair step per block in order, stream end (R73, R137, R138). -/
def streamPair (stream : Nat) (mask1Low mask1High mask2Low mask2High : Vec) (blocks : List Vec) : List HostAction :=
  .startStream stream ::
    (blocks.map (fun b => .pairStep stream mask1Low mask1High mask2Low mask2High b) ++ [.endStream stream])

/-- `STREAM_SINGLE`: a `CLASSIFY` request per block (R73, R145). -/
def streamSingle (maskLow maskHigh : Vec) (blocks : List Vec) : List HostAction :=
  blocks.map fun b => .issue (encode (.classify maskLow maskHigh b))

/-- The host puts a request before everything else it is about to do. -/
def State.issueNext (request : List Byte) (s : State) : State := s.setPending (.issue request :: s.pending)

end Sys2Proof.Machine
end

