-- ==== Sys2Proof/Machine/Step.lean ====
section
/-! DEFINITION. The step: the host's next action, a request with its response being one whole step (00_scope.md R13,
decision D1). -/

namespace Sys2Proof.Machine

/-- One step. With nothing for the host to do the block stays ready as it is (70_reset_and_hazards.md R176; log entry 3). -/
def step (s : State) : Host.Outcome State Fault Refusal :=
  match s.pending with
  | [] => .next s
  | a :: rest => perform a (s.setPending rest)

/-- The state with an opcode-table word as the request the host issues next (log entry 13). -/
def State.withFetchWord (s : State) (nbits w : Nat) : State :=
  s.issueNext (requestOfTableWord s.cfg.width nbits w)

end Sys2Proof.Machine
end

