-- ==== Sys2Proof/Machine/System.lean ====
section
/-! DEFINITION. Several instances at once (20_memory.md R49; 60_exceptions.md R160): a list of states that share
nothing writable, stepped one at a time in any order. -/

namespace Sys2Proof.Machine

/-- One step of instance number `k`; the others are not touched (R160). No instance, no step (log entry 14).
DESIGN CHOICE (log entry 19): a refusal or fault of one instance is the outcome of the whole list, and no other
instance's state is answered. The spec defines a run per instance (R156, R176) and says nothing of a combined run. -/
def stepInstance (k : Nat) (instances : List State) : Host.Outcome (List State) Fault Refusal :=
  match instances[k]? with
  | none => .next instances
  | some s =>
    match step s with
    | .next t => .next (instances.set k t)
    | .fault f => .fault f
    | .refused r => .refused r

end Sys2Proof.Machine
end

