-- ==== Sys2Proof/Safety.lean ====
section
/-! DEFINITION. The terms claims are made in: runs, the invariant, what a host observes, and what a stream is
(00_scope.md R14; 10_state.md R28, R29; 44_stream_protocol.md R135, R140). -/

namespace Sys2Proof.Machine

/-- A run of `n` steps, stopping at the first fault or refusal (60_exceptions.md R156, 70_reset_and_hazards.md R176). -/
def run (n : Nat) (s : State) : Host.Outcome State Fault Refusal := Sys2Proof.core.run n s

/-! ### The invariant -/

/-- A vector of the instance's width whose lanes are all `0x00` or `0xFF` (R29, R31). -/
def legalMatchVector (w : LaneWidth) (v : Vec) : Bool := v.hasWidth w && isMatchVector v

/-- `gate` is `UNCHECKED` or says what `CHKCAP` answers on the configuration (R82). -/
def legalGate (c : Config) (g : Gate) : Bool :=
  decide (g = .unchecked) || decide (g = gateOfStatus (capabilityStatus c))

/-- A response the block can have given: the one status of its configuration, or MatchVectors of its width (R81, R31). -/
def legalResponse (c : Config) : Response → Bool
  | .status st => decide (st = capabilityStatus c)
  | .matchVector mv => legalMatchVector c.width mv
  | .pair result carryOut => legalMatchVector c.width result && legalMatchVector c.width carryOut

/-- The staging buffer is in canonical form and lists no address outside `0 .. 2S-1` (R26, R46). -/
def legalStaging (w : LaneWidth) (m : Memory) : Bool :=
  m.wf && m.all fun e => decide (e.1 < stagingBytes w)

/-- The carries are in canonical form and each is a MatchVector of the instance's width (R29). -/
def legalCarries (w : LaneWidth) (c : Carries) : Bool :=
  keysRise c && c.all fun e => legalMatchVector w e.2

/-- The invariant every step keeps. -/
def State.legal (s : State) : Bool :=
  legalGate s.cfg s.gate && legalStaging s.cfg.width s.stg && legalCarries s.cfg.width s.carries
    && s.responses.all (legalResponse s.cfg)

/-! ### Observation -/

/-- An outcome with the contents of the staging buffer left out: no operation can observe them (R14, R27). -/
def withoutStaging : Host.Outcome State Fault Refusal → Host.Outcome State Fault Refusal
  | .next s => .next (s.setStg [])
  | .fault f => .fault f
  | .refused r => .refused r

/-- The MatchVectors of the pair responses, one after the other: the observation of a stream (R14, R140). -/
def pairResults : List Response → Vec
  | [] => []
  | .pair result _ :: rest => result ++ pairResults rest
  | _ :: rest => pairResults rest

/-! ### Streams, classes and groups -/

/-- The blocks of `S` bytes of an input of `n*S` bytes: `B_k[i] = x[k*S + i]` (R135). DESIGN CHOICE (log entry 20):
R135 leaves an input of any other length to the host; here the bytes after the last whole block are dropped. -/
def blocksOf (w : LaneWidth) (x : Vec) : List Vec :=
  (List.range (x.length / w.bytes)).map fun k => (x.drop (k * w.bytes)).take w.bytes

/-- Whether a byte is in the class a pair of mask operands encodes (42_single_class_matcher.md R113). -/
def inClass (maskLow maskHigh : Vec) (b : Byte) : Bool := classOf (tableOf maskLow) (tableOf maskHigh) b

/-- A mask operand as the host owes it: of the instance's width and tiled (44_stream_protocol.md R139 duty 2). -/
def legalMask (w : LaneWidth) (m : Vec) : Bool := m.hasWidth w && tiled m

/-- The 16 lanes of group `g` (00_scope.md R6). -/
def groupOf (g : Nat) (v : Vec) : Vec := (v.drop (groupLanes * g)).take groupLanes

/-- The lane of a MatchVector for a condition on the input (00_scope.md glossary, MatchVector). -/
def hitLane (c : Bool) : Byte := if c then 0xFF#8 else 0x00#8

end Sys2Proof.Machine
end

