-- ==== Sys2Proof/Certificates/Slice0/Obligations.lean ====
section
/-! DEFINITION. The statements for the provers. Rule numbers are those of spec/. -/

open Sys2Proof Sys2Proof.Machine

/-! ### Requests and their encoding -/

/-- Decoding the request of a well-formed operation gives that operation back, for every operand at every value. -/
def Obligations.DecodeOfEncodeIsTheOperation : Prop :=
  ∀ (w : LaneWidth) (i : Instr), i.wellFormed w = true → decode w (encode i) = .instr i

/-- Each request has one meaning: what decodes is well formed and encodes back to the very same bytes. -/
def Obligations.EncodeOfDecodeIsTheRequest : Prop :=
  ∀ (w : LaneWidth) (request : List Byte) (i : Instr), decode w request = .instr i →
    i.wellFormed w = true ∧ encode i = request

/-- R65: which bytes of a request are which operand of `CLASSIFY`. -/
def Obligations.ClassifyOperandsStandAtTheirOffsets : Prop :=
  ∀ (w : LaneWidth) (request : List Byte), request.length = 1 + 3 * w.bytes → request.head? = some 0x01#8 →
    ∃ maskLow maskHigh chars, decode w request = .instr (.classify maskLow maskHigh chars) ∧
      maskLow.length = w.bytes ∧ maskHigh.length = w.bytes ∧ chars.length = w.bytes ∧
      ∀ i < w.bytes,
        request[1 + i]? = some (lane maskLow i) ∧
        request[1 + w.bytes + i]? = some (lane maskHigh i) ∧
        request[1 + 2 * w.bytes + i]? = some (lane chars i)

/-- R66: which bytes of a request are which operand of `CLASSIFY_PAIR`. -/
def Obligations.PairOperandsStandAtTheirOffsets : Prop :=
  ∀ (w : LaneWidth) (request : List Byte), request.length = 1 + 6 * w.bytes → request.head? = some 0x02#8 →
    ∃ mask1Low mask1High mask2Low mask2High carryIn chars,
      decode w request = .instr (.classifyPair mask1Low mask1High mask2Low mask2High carryIn chars) ∧
      (∀ v ∈ [mask1Low, mask1High, mask2Low, mask2High, carryIn, chars], v.length = w.bytes) ∧
      ∀ i < w.bytes,
        request[1 + i]? = some (lane mask1Low i) ∧
        request[1 + w.bytes + i]? = some (lane mask1High i) ∧
        request[1 + 2 * w.bytes + i]? = some (lane mask2Low i) ∧
        request[1 + 3 * w.bytes + i]? = some (lane mask2High i) ∧
        request[1 + 4 * w.bytes + i]? = some (lane carryIn i) ∧
        request[1 + 5 * w.bytes + i]? = some (lane chars i)

/-- R69, R70, R71: when decoding rejects, and with which reason; in every other case it answers an operation. -/
def Obligations.DecodeRejectsByName : Prop :=
  ∀ w : LaneWidth,
    decode w [] = .invalid .badLength ∧
    ∀ (opcode : Byte) (payload : List Byte),
      (3 ≤ opcode.toNat → decode w (opcode :: payload) = .invalid .reservedOpcode) ∧
      (opcode = 0x00#8 → payload.length + 1 ≠ 1 → decode w (opcode :: payload) = .invalid .badLength) ∧
      (opcode = 0x01#8 → payload.length + 1 ≠ 1 + 3 * w.bytes → decode w (opcode :: payload) = .invalid .badLength) ∧
      (opcode = 0x02#8 → payload.length + 1 ≠ 1 + 6 * w.bytes → decode w (opcode :: payload) = .invalid .badLength) ∧
      (∀ r, decode w (opcode :: payload) = .invalid r →
        3 ≤ opcode.toNat ∨ (opcode = 0x00#8 ∧ payload.length + 1 ≠ 1) ∨
        (opcode = 0x01#8 ∧ payload.length + 1 ≠ 1 + 3 * w.bytes) ∨
        (opcode = 0x02#8 ∧ payload.length + 1 ≠ 1 + 6 * w.bytes))

/-- A few requests written out byte by byte decode to what they stand for (P1 of 95_test_vectors.md, and 03). -/
def Obligations.KnownRequestsDecodeRight : Prop :=
  decode .w16 [0x00#8] = .instr .chkcap ∧
  decode .w16 [0x03#8] = .invalid .reservedOpcode ∧
  decode .w16 [
    0x01#8, 0xFF#8, 0x01#8, 0xFF#8, 0xFF#8, 0xFF#8, 0xFF#8, 0xFF#8, 0xFF#8, 0xFF#8, 0xFF#8, 0xFF#8, 0xFF#8, 0xFF#8, 0xFF#8, 0xFF#8,
    0xFF#8, 0x01#8, 0x01#8, 0x01#8, 0x01#8, 0x01#8, 0x01#8, 0x02#8, 0x01#8, 0x01#8, 0x01#8, 0x01#8, 0x01#8, 0x01#8, 0x01#8, 0x01#8,
    0x01#8, 0x61#8, 0x61#8, 0x61#8, 0x62#8, 0x00#8, 0x00#8, 0x00#8, 0x00#8, 0x00#8, 0x00#8, 0x00#8, 0x00#8, 0x00#8, 0x00#8, 0x00#8,
    0x00#8] =
    .instr (.classify
      [0xFF#8, 0x01#8, 0xFF#8, 0xFF#8, 0xFF#8, 0xFF#8, 0xFF#8, 0xFF#8, 0xFF#8, 0xFF#8, 0xFF#8, 0xFF#8, 0xFF#8, 0xFF#8, 0xFF#8, 0xFF#8]
      [0x01#8, 0x01#8, 0x01#8, 0x01#8, 0x01#8, 0x01#8, 0x02#8, 0x01#8, 0x01#8, 0x01#8, 0x01#8, 0x01#8, 0x01#8, 0x01#8, 0x01#8, 0x01#8]
      [0x61#8, 0x61#8, 0x61#8, 0x62#8, 0x00#8, 0x00#8, 0x00#8, 0x00#8, 0x00#8, 0x00#8, 0x00#8, 0x00#8, 0x00#8, 0x00#8, 0x00#8, 0x00#8])

/-- R157: the checks on a request, in their order, and that a request which passes them all is executed. -/
def Obligations.RequestsAreCheckedInOrder : Prop :=
  ∀ (s : State) (opcode : Byte) (payload : List Byte),
    (3 ≤ opcode.toNat → submit (opcode :: payload) s = .refused .reservedOpcode) ∧
    (∀ f, formatOfOpcode opcode = some f → payload.length + 1 ≠ f.requestLength s.cfg.width →
      submit (opcode :: payload) s = .refused .badLength) ∧
    (∀ i, decode s.cfg.width (opcode :: payload) = .instr i → i ≠ .chkcap → s.gate ≠ .passed →
      submit (opcode :: payload) s = .refused .capabilityNotEstablished) ∧
    (∀ i m, decode s.cfg.width (opcode :: payload) = .instr i → s.gate = .passed → m ∈ i.masks → tiled m = false →
      submit (opcode :: payload) s = .refused .tableNotTiled) ∧
    (∀ i, decode s.cfg.width (opcode :: payload) = .instr i →
      (i = .chkcap ∨ (s.gate = .passed ∧ ∀ m ∈ i.masks, tiled m = true)) →
      ∃ t, submit (opcode :: payload) s = .next t ∧ exec i s = .next t)

/-- R61: an executed request delivers exactly one response, of the length its format has; the earlier ones stay. -/
def Obligations.OneResponsePerRequestOfItsLength : Prop :=
  ∀ (s t : State) (i : Instr), exec i s = .next t →
    ∃ r, t.responses = s.responses ++ [r] ∧ r.bytes.length = i.format.responseLength s.cfg.width

/-! ### The step -/

/-- When the host's next action is a request that decodes, the step is that operation, the action taken off. -/
def Obligations.StepRunsTheDecodedOperation : Prop :=
  ∀ (s : State) (request : List Byte) (rest : List HostAction) (i : Instr),
    s.pending = .issue request :: rest → decode s.cfg.width request = .instr i →
    step s = exec i { s with pending := rest }

/-- R69, R70: when the host's next action is a request that does not decode, the step is the refusal of that name. -/
def Obligations.StepRefusesWhatDoesNotDecode : Prop :=
  ∀ (s : State) (request : List Byte) (rest : List HostAction),
    s.pending = .issue request :: rest →
    (decode s.cfg.width request = .invalid .reservedOpcode → step s = .refused .reservedOpcode) ∧
    (decode s.cfg.width request = .invalid .badLength → step s = .refused .badLength)

/-- With nothing for the host to do a step changes nothing: the MODEL's choice (log entry 3). -/
def Obligations.IdleStepChangesNothing : Prop :=
  ∀ s : State, s.pending = [] → step s = .next s

/-- R11, R153: no operation faults, whatever the operands and the state; and a step faults only where the host takes a pair
step on a stream that is not open (the MODEL's own fault, log entry 6). -/
def Obligations.NoOperationFaults : Prop :=
  (∀ (i : Instr) (s : State) (f : Fault), exec i s ≠ .fault f) ∧
  ∀ (s : State) (f : Fault), step s = .fault f →
    ∃ stream mask1Low mask1High mask2Low mask2High block rest,
      s.pending = .pairStep stream mask1Low mask1High mask2Low mask2High block :: rest ∧
      s.carryOf stream = none ∧ f = .noCarry stream

/-! ### CHKCAP and the gate -/

/-- R80, R82: `CHKCAP` always answers, with the status of Scenario C; it sets `gate` and changes nothing else. -/
def Obligations.ChkcapAnswersTheCapability : Prop :=
  ∀ s : State,
    ((s.cfg.backend = .portable ∨ s.cfg.featurePresent = true) →
      exec .chkcap s = .next { s with gate := .passed, responses := s.responses ++ [.status .success] }) ∧
    ((s.cfg.backend = .hwSpecific ∧ s.cfg.featurePresent = false) →
      exec .chkcap s = .next { s with gate := .failed, responses := s.responses ++ [.status .archError] })

/-- R81: whatever an instance has done in between, resets included, `CHKCAP` answers the same status again. -/
def Obligations.ChkcapRepeatsItsStatus : Prop :=
  ∀ (n : Nat) (s t : State), run n s = .next t →
    ∃ st, exec .chkcap s = .next { s with gate := gateOfStatus st, responses := s.responses ++ [.status st] } ∧
      exec .chkcap t = .next { t with gate := gateOfStatus st, responses := t.responses ++ [.status st] }

/-- R82: `CHKCAP` alone changes `gate`; once it is `PASSED` or `FAILED` it stays so until the instance is reset. -/
def Obligations.GateIsSetByChkcapAlone : Prop :=
  (∀ (i : Instr) (s t : State), exec i s = .next t →
    t.gate = if i = .chkcap then (if capabilityStatus s.cfg = .success then .passed else .failed) else s.gate) ∧
  ∀ s t : State, s.legal = true → step s = .next t → s.gate ≠ .unchecked → s.pending.head? ≠ some .resetBlock →
    t.gate = s.gate

/-- R83: a matcher request before `CHKCAP` has answered SUCCESS, or after it answered ARCH_ERROR, is refused. -/
def Obligations.MatchersNeedTheGate : Prop :=
  ∀ (s : State) (i : Instr), i.wellFormed s.cfg.width = true → i ≠ .chkcap →
    (s.gate = .unchecked ∨ s.gate = .failed) → exec i s = .refused .capabilityNotEstablished

/-- R84, R150: on an instance whose capability is absent every response a run delivers is the status ARCH_ERROR. -/
def Obligations.WithoutCapabilityOnlyArchError : Prop :=
  ∀ (n : Nat) (s t : State), s.legal = true → s.cfg.backend = .hwSpecific → s.cfg.featurePresent = false →
    run n s = .next t → ∃ rs, t.responses = s.responses ++ rs ∧ ∀ r ∈ rs, r = .status .archError

/-- R150, R155: ARCH_ERROR comes from `CHKCAP` alone, and only where the capability is absent. -/
def Obligations.ArchErrorComesFromChkcapAlone : Prop :=
  ∀ (i : Instr) (s t : State), exec i s = .next t → t.responses.getLast? = some (.status .archError) →
    i = .chkcap ∧ s.cfg.backend = .hwSpecific ∧ s.cfg.featurePresent = false

/-! ### The vector primitives -/

/-- R90, R91, R92: the bitwise primitives, lane by lane. AND-NOT is one of the two readings R92 gives, one and the
same for all widths, operands and lanes. Which of them is left open: `ANDNOT_ORDER` is an opaque constant of the model
(log entry 9). -/
def Obligations.BitwisePrimitivesActLaneByLane : Prop :=
  (∀ (w : LaneWidth) (a b : Vec), a.length = w.bytes → b.length = w.bytes →
    (∀ i < w.bytes, lane (vand a b) i = lane a i &&& lane b i) ∧
    (∀ i < w.bytes, lane (vor a b) i = lane a i ||| lane b i) ∧
    vand a (onesVec w) = a ∧ vand a (zeroVec w) = zeroVec w ∧ vand a a = a) ∧
  ((∀ (w : LaneWidth) (a b : Vec), a.length = w.bytes → b.length = w.bytes →
      ∀ i < w.bytes, lane (vandnot a b) i = (~~~(lane a i)) &&& lane b i) ∨
    (∀ (w : LaneWidth) (a b : Vec), a.length = w.bytes → b.length = w.bytes →
      ∀ i < w.bytes, lane (vandnot a b) i = lane a i &&& (~~~(lane b i))))

/-- R93, R94: the lane comparisons, that they give MatchVectors, and that equality to all-ones keeps a MatchVector. -/
def Obligations.ComparisonsGiveMatchVectors : Prop :=
  ∀ a : Vec,
    (∀ i < a.length, lane (eqZero a) i = if lane a i = 0x00#8 then 0xFF#8 else 0x00#8) ∧
    (∀ i < a.length, lane (eqOnes a) i = if lane a i = 0xFF#8 then 0xFF#8 else 0x00#8) ∧
    (eqZero a).length = a.length ∧ (eqOnes a).length = a.length ∧
    isMatchVector (eqZero a) = true ∧ isMatchVector (eqOnes a) = true ∧
    (isMatchVector a = true → eqOnes a = a)

/-- The 4-bit shift inside 64-bit sub-lanes, lane by lane, with its leakage; and what survives the mask. Which lane
leaks and that zeros enter lane `8k + 7` rest on the byte order and the logical shift of decision D15, which R95 calls
the spec's own choice and the model follows (log entry 10, DEDUCED); what survives the mask does not depend on them. -/
def Obligations.ShiftStaysInItsSubLane : Prop :=
  ∀ (w : LaneWidth) (a : Vec), a.length = w.bytes → (shr4_64 a).length = w.bytes ∧
    (∀ k j, j < 7 → 8 * k + j < w.bytes →
      lane (shr4_64 a) (8 * k + j) = (lane a (8 * k + j) >>> 4) ||| ((lane a (8 * k + j + 1) &&& 0x0F#8) <<< 4)) ∧
    (∀ k, 8 * k + 7 < w.bytes → lane (shr4_64 a) (8 * k + 7) = lane a (8 * k + 7) >>> 4) ∧
    (∀ i < w.bytes, lane (shr4_64 a) i &&& 0x0F#8 = lane a i >>> 4)

/-- R97, R98: a lookup reads the lane's own group of 16; in a tiled table that is the table's entry in every group. -/
def Obligations.LookupStaysInItsGroup : Prop :=
  ∀ (w : LaneWidth) (m : Vec) (idx : List Nibble), m.length = w.bytes → idx.length = w.bytes →
    (∀ i (h : i < idx.length), lane (lookup16 m idx) i = lane m (16 * (i / 16) + idx[i].toNat)) ∧
    (tiled m = true → ∀ i (h : i < idx.length), lane (lookup16 m idx) i = lane (tableOf m) idx[i].toNat)

/-- R96: a broadcast fills every lane of a vector of the instance's width. -/
def Obligations.BroadcastFillsEveryLane : Prop :=
  ∀ (w : LaneWidth) (b : Byte), (broadcast w b).length = w.bytes ∧ ∀ i < w.bytes, lane (broadcast w b) i = b

/-- R100, R41: a store places lane `i` at address `a + i`, whatever `a`, aligned or not; every byte outside reads as
before, and the canonical form is kept. -/
def Obligations.StagingStorePlacesTheLanes : Prop :=
  ∀ (w : LaneWidth) (address : Nat) (v : Vec) (m : Memory), v.length = w.bytes →
    address + w.bytes ≤ 2 * w.bytes →
    ∃ m', vstore w address v m = .ok m' ∧
      (∀ i < w.bytes, Memory.byteAt m' (address + i) = some (lane v i)) ∧
      (∀ a, a < address ∨ address + w.bytes ≤ a → Memory.byteAt m' a = Memory.byteAt m a) ∧
      (Memory.wf m = true → Memory.wf m' = true)

/-- R99, R41: a load takes lane `i` from address `a + i`, whatever `a`, aligned or not, where those bytes hold values. -/
def Obligations.StagingLoadTakesTheLanes : Prop :=
  ∀ (w : LaneWidth) (address : Nat) (v : Vec) (m : Memory), v.length = w.bytes →
    address + w.bytes ≤ 2 * w.bytes → (∀ i < w.bytes, Memory.byteAt m (address + i) = some (lane v i)) →
    vload w address m = .ok v

/-- An access that leaves `0 .. 2S-1` faults, and so does a load of bytes without a value: the MODEL's choice (log entry 2). -/
def Obligations.StagingAccessOutsideFaults : Prop :=
  ∀ (w : LaneWidth) (address : Nat) (v : Vec) (m : Memory),
    (v.length = w.bytes → 2 * w.bytes < address + w.bytes →
      vstore w address v m = .error (.stgNoAddress address) ∧ ∃ f, vload w address m = .error f) ∧
    (address < 2 * w.bytes → Memory.byteAt m address = none → vload w address m = .error (.stgUnwritten address))

/-! ### CLASSIFY -/

/-- R111: the result of `CLASSIFY` is the closed form over the two tables; it adds the response and changes nothing
else: no memory byte, no carry, no gate. -/
def Obligations.ClassifyAnswersTheClosedForm : Prop :=
  ∀ (s : State) (maskLow maskHigh chars : Vec),
    s.gate = .passed → maskLow.length = s.cfg.width.bytes → maskHigh.length = s.cfg.width.bytes →
    chars.length = s.cfg.width.bytes → tiled maskLow = true → tiled maskHigh = true →
    ∃ mv, exec (.classify maskLow maskHigh chars) s =
        .next { s with responses := s.responses ++ [.matchVector mv] } ∧
      mv.length = s.cfg.width.bytes ∧
      ∀ i < s.cfg.width.bytes,
        lane mv i =
          if lane (tableOf maskLow) (lane chars i &&& 0x0F#8).toNat &&&
              lane (tableOf maskHigh) (lane chars i >>> 4).toNat = 0x00#8
          then 0xFF#8 else 0x00#8

/-- R115 (c): each group of 16 lanes is what an instance of width 16 answers on that group alone. -/
def Obligations.ClassifyGroupsAreIsolated : Prop :=
  ∀ (s s16 : State) (maskLow maskHigh chars : Vec) (g : Nat),
    s.gate = .passed → s16.gate = .passed → s16.cfg.width = .w16 → g < s.cfg.width.bytes / 16 →
    maskLow.length = s.cfg.width.bytes → maskHigh.length = s.cfg.width.bytes →
    chars.length = s.cfg.width.bytes → tiled maskLow = true → tiled maskHigh = true →
    ∃ mv, exec (.classify maskLow maskHigh chars) s =
        .next { s with responses := s.responses ++ [.matchVector mv] } ∧
      exec (.classify (groupOf g maskLow) (groupOf g maskHigh) (groupOf g chars)) s16 =
        .next { s16 with responses := s16.responses ++ [.matchVector (groupOf g mv)] }

/-- R112 corner cases (b) and (c): an all-zero table makes every byte a member, two all-ones tables make none. -/
def Obligations.ClassifyWithDegenerateTables : Prop :=
  ∀ (s : State) (maskLow maskHigh chars : Vec),
    s.gate = .passed → maskLow.length = s.cfg.width.bytes → maskHigh.length = s.cfg.width.bytes →
    chars.length = s.cfg.width.bytes → tiled maskLow = true → tiled maskHigh = true →
    ((maskLow = zeroVec s.cfg.width ∨ maskHigh = zeroVec s.cfg.width) →
      exec (.classify maskLow maskHigh chars) s =
        .next { s with responses := s.responses ++ [.matchVector (onesVec s.cfg.width)] }) ∧
    (maskLow = onesVec s.cfg.width ∧ maskHigh = onesVec s.cfg.width →
      exec (.classify maskLow maskHigh chars) s =
        .next { s with responses := s.responses ++ [.matchVector (zeroVec s.cfg.width)] })

/-- R114: some class of byte values is encoded by no pair of tables, of 16 entries or of any other number (an entry
past a table's end reads zero, the MODEL's choice, log entry 12). -/
def Obligations.SomeClassHasNoTables : Prop :=
  ∃ C : Byte → Bool, ∀ low high : Vec, ∃ b : Byte, classOf low high b ≠ C b

/-! ### CLASSIFY_PAIR -/

/-- R121: the result and carryOut of `CLASSIFY_PAIR` in closed form; the response is added, the staging buffer gets
other contents, and nothing else changes. -/
def Obligations.ClassifyPairAnswersTheClosedForm : Prop :=
  ∀ (s : State) (mask1Low mask1High mask2Low mask2High carryIn chars : Vec),
    s.gate = .passed →
    (∀ v ∈ [mask1Low, mask1High, mask2Low, mask2High, carryIn, chars], v.length = s.cfg.width.bytes) →
    (∀ m ∈ [mask1Low, mask1High, mask2Low, mask2High], tiled m = true) →
    ∃ result carryOut stg,
      exec (.classifyPair mask1Low mask1High mask2Low mask2High carryIn chars) s =
        .next { s with stg := stg, responses := s.responses ++ [.pair result carryOut] } ∧
      result.length = s.cfg.width.bytes ∧ carryOut.length = s.cfg.width.bytes ∧
      (lane result 0 =
        hitLane (decide (lane carryIn (s.cfg.width.bytes - 1) = 0xFF#8) && inClass mask2Low mask2High (lane chars 0))) ∧
      (∀ i, 1 ≤ i → i < s.cfg.width.bytes → lane result i =
        hitLane (inClass mask1Low mask1High (lane chars (i - 1)) && inClass mask2Low mask2High (lane chars i))) ∧
      (∀ i < s.cfg.width.bytes, lane carryOut i = hitLane (inClass mask1Low mask1High (lane chars i)))

/-- R123, R46: after `CLASSIFY_PAIR` the staging buffer holds carryIn and then the first-byte candidates (the vector
answered as carryOut), and every byte outside those `2*S` reads as before. -/
def Obligations.ClassifyPairFillsTheStagingBuffer : Prop :=
  ∀ (s t : State) (mask1Low mask1High mask2Low mask2High carryIn chars : Vec),
    exec (.classifyPair mask1Low mask1High mask2Low mask2High carryIn chars) s = .next t →
    ∃ result carryOut, t.responses = s.responses ++ [.pair result carryOut] ∧
      (∀ j < s.cfg.width.bytes, Memory.byteAt t.stg j = some (lane carryIn j)) ∧
      (∀ j < s.cfg.width.bytes, Memory.byteAt t.stg (s.cfg.width.bytes + j) = some (lane carryOut j)) ∧
      (∀ a, 2 * s.cfg.width.bytes ≤ a → Memory.byteAt t.stg a = Memory.byteAt s.stg a)

/-- R124: carryOut is exactly what `CLASSIFY` with the first tables answers on the same block in the same state, where
neither carryIn nor the second tables nor the result occur; it is a MatchVector. -/
def Obligations.CarryOutIsTheFirstClassification : Prop :=
  ∀ (s t : State) (mask1Low mask1High mask2Low mask2High carryIn chars : Vec),
    exec (.classifyPair mask1Low mask1High mask2Low mask2High carryIn chars) s = .next t →
    ∃ result carryOut, t.responses = s.responses ++ [.pair result carryOut] ∧ isMatchVector carryOut = true ∧
      exec (.classify mask1Low mask1High chars) s =
        .next { s with responses := s.responses ++ [.matchVector carryOut] }

/-- R126: two calls that differ only in lanes `0 .. S-2` of carryIn deliver identical responses. -/
def Obligations.OnlyTheLastCarryLaneMatters : Prop :=
  ∀ (s t : State) (mask1Low mask1High mask2Low mask2High carry1 carry2 chars : Vec),
    carry1.length = s.cfg.width.bytes → carry2.length = s.cfg.width.bytes →
    lane carry1 (s.cfg.width.bytes - 1) = lane carry2 (s.cfg.width.bytes - 1) →
    exec (.classifyPair mask1Low mask1High mask2Low mask2High carry1 chars) s = .next t →
    ∃ u, exec (.classifyPair mask1Low mask1High mask2Low mask2High carry2 chars) s = .next u ∧
      u.responses = t.responses

/-- R127, R128 (a): a last carry lane that is not all-ones gives no hit in lane 0, whatever its other bits; the
result is what a zero lane gives. -/
def Obligations.PartialCarryLaneIsNoCandidate : Prop :=
  ∀ (s t : State) (mask1Low mask1High mask2Low mask2High carryIn chars : Vec),
    lane carryIn (s.cfg.width.bytes - 1) ≠ 0xFF#8 →
    exec (.classifyPair mask1Low mask1High mask2Low mask2High carryIn chars) s = .next t →
    ∃ result carryOut, t.responses = s.responses ++ [.pair result carryOut] ∧ lane result 0 = 0x00#8 ∧
      ∃ u, exec (.classifyPair mask1Low mask1High mask2Low mask2High (neutralCarry s.cfg.width) chars) s = .next u ∧
        u.responses = t.responses

/-- R142: with the neutral carry, lane 0 of a block's result is zero, for every block and all tables. -/
def Obligations.NeutralCarryGivesNoHitInLaneZero : Prop :=
  ∀ (s : State) (mask1Low mask1High mask2Low mask2High chars : Vec),
    s.gate = .passed →
    (∀ v ∈ [mask1Low, mask1High, mask2Low, mask2High, chars], v.length = s.cfg.width.bytes) →
    (∀ m ∈ [mask1Low, mask1High, mask2Low, mask2High], tiled m = true) →
    ∃ t result carryOut,
      exec (.classifyPair mask1Low mask1High mask2Low mask2High (neutralCarry s.cfg.width) chars) s = .next t ∧
      t.responses = s.responses ++ [.pair result carryOut] ∧ lane result 0 = 0x00#8

/-! ### Streams -/

/-- R137, R136: stream start gives the stream the neutral carry, stream end discards it; no other stream's carry, no
response and no part of the block changes. R137 does not say whether the stream is open: that starting an open stream
sets its carry to the neutral one again, and that ending a closed one changes nothing, is the MODEL's reading (log
entry 7, DEDUCED), and that the carries stand in the state under stream numbers is the MODEL's (log entry 5). -/
def Obligations.StreamStartAndEnd : Prop :=
  ∀ (s : State) (stream : Nat) (rest : List HostAction),
    (s.pending = .startStream stream :: rest → ∃ t, step s = .next t ∧
      t.carryOf stream = some (List.replicate s.cfg.width.bytes 0x00#8) ∧
      (∀ other, other ≠ stream → t.carryOf other = s.carryOf other) ∧
      t = { s with pending := rest, carries := t.carries }) ∧
    (s.pending = .endStream stream :: rest → ∃ t, step s = .next t ∧
      t.carryOf stream = none ∧
      (∀ other, other ≠ stream → t.carryOf other = s.carryOf other) ∧
      t = { s with pending := rest, carries := t.carries })

/-- R137, R144: a pair step runs `CLASSIFY_PAIR` with the stream's own carry and stores the answered carryOut, hit or
no hit; the carries of other streams stay. -/
def Obligations.PairStepThreadsTheCarry : Prop :=
  ∀ (s : State) (stream : Nat) (mask1Low mask1High mask2Low mask2High block carry : Vec) (rest : List HostAction),
    s.pending = .pairStep stream mask1Low mask1High mask2Low mask2High block :: rest →
    s.carryOf stream = some carry → s.gate = .passed →
    (∀ v ∈ [mask1Low, mask1High, mask2Low, mask2High, carry, block], v.length = s.cfg.width.bytes) →
    (∀ m ∈ [mask1Low, mask1High, mask2Low, mask2High], tiled m = true) →
    ∃ t u result carryOut,
      exec (.classifyPair mask1Low mask1High mask2Low mask2High carry block) { s with pending := rest } = .next u ∧
      u.responses = s.responses ++ [.pair result carryOut] ∧
      step s = .next t ∧ t = { u with carries := t.carries } ∧
      t.carryOf stream = some carryOut ∧ ∀ other, other ≠ stream → t.carryOf other = s.carryOf other

/-- R140, R143: what the responses of `STREAM_PAIR` mean, for every stream of whole blocks and the host's duties as
premises: lane `i` of block `k` is a hit exactly if the byte at stream position `k*S + i` is in the second class and
the byte before it, which exists, is in the first; the last carry is discarded. -/
def Obligations.StreamPairFindsExactlyThePairs : Prop :=
  ∀ (s : State) (stream : Nat) (mask1Low mask1High mask2Low mask2High : Vec) (blocks : List Vec)
    (rest : List HostAction),
    s.gate = .passed →
    (∀ m ∈ [mask1Low, mask1High, mask2Low, mask2High], legalMask s.cfg.width m = true) →
    (∀ b ∈ blocks, b.length = s.cfg.width.bytes) →
    s.pending = streamPair stream mask1Low mask1High mask2Low mask2High blocks ++ rest →
    ∃ t rs, run (blocks.length + 2) s = .next t ∧
      t.responses = s.responses ++ rs ∧ rs.length = blocks.length ∧
      t.cfg = s.cfg ∧ t.gate = .passed ∧ t.pending = rest ∧ t.carryOf stream = none ∧
      (∀ other, other ≠ stream → t.carryOf other = s.carryOf other) ∧
      ∀ k < blocks.length, ∃ result carryOut, rs[k]? = some (.pair result carryOut) ∧
        result.length = s.cfg.width.bytes ∧ carryOut.length = s.cfg.width.bytes ∧
        ∀ i < s.cfg.width.bytes,
          lane result i = hitLane (decide (1 ≤ k * s.cfg.width.bytes + i)
            && inClass mask1Low mask1High (lane blocks.flatten (k * s.cfg.width.bytes + i - 1))
            && inClass mask2Low mask2High (lane blocks.flatten (k * s.cfg.width.bytes + i))) ∧
          lane carryOut i = hitLane (inClass mask1Low mask1High (lane blocks.flatten (k * s.cfg.width.bytes + i)))

/-- R141 (a): two instances of any widths find the same pairs in the same bytes: the concatenated results of
`STREAM_PAIR` do not depend on where the block boundaries fall. The input is a whole number of blocks of either
width, as R135 has it, so what `blocksOf` does with any other length (log entry 20) plays no part. A table of fewer than 16 entries reads zero
past its end, the MODEL's choice (log entry 12), the same at both widths. -/
def Obligations.PairResultsDoNotDependOnTheWidth : Prop :=
  ∀ (s1 s2 : State) (stream : Nat) (low1 high1 low2 high2 x : Vec),
    s1.gate = .passed → s2.gate = .passed →
    x.length % s1.cfg.width.bytes = 0 → x.length % s2.cfg.width.bytes = 0 →
    s1.pending = streamPair stream (tile s1.cfg.width low1) (tile s1.cfg.width high1) (tile s1.cfg.width low2)
      (tile s1.cfg.width high2) (blocksOf s1.cfg.width x) →
    s2.pending = streamPair stream (tile s2.cfg.width low1) (tile s2.cfg.width high1) (tile s2.cfg.width low2)
      (tile s2.cfg.width high2) (blocksOf s2.cfg.width x) →
    ∃ t1 t2 rs1 rs2,
      run (x.length / s1.cfg.width.bytes + 2) s1 = .next t1 ∧ t1.responses = s1.responses ++ rs1 ∧
      run (x.length / s2.cfg.width.bytes + 2) s2 = .next t2 ∧ t2.responses = s2.responses ++ rs2 ∧
      (pairResults rs1).length = x.length ∧ pairResults rs1 = pairResults rs2

/-- R145: what the responses of `STREAM_SINGLE` mean; no carry, and the blocks may be any blocks in any order. -/
def Obligations.StreamSingleClassifiesEveryByte : Prop :=
  ∀ (s : State) (maskLow maskHigh : Vec) (blocks : List Vec) (rest : List HostAction),
    s.gate = .passed → legalMask s.cfg.width maskLow = true → legalMask s.cfg.width maskHigh = true →
    (∀ b ∈ blocks, b.length = s.cfg.width.bytes) →
    s.pending = streamSingle maskLow maskHigh blocks ++ rest →
    ∃ rs, run blocks.length s = .next { s with pending := rest, responses := s.responses ++ rs } ∧
      rs.length = blocks.length ∧
      ∀ k (hk : k < blocks.length), ∃ mv, rs[k]? = some (.matchVector mv) ∧ mv.length = s.cfg.width.bytes ∧
        ∀ i < s.cfg.width.bytes, lane mv i = hitLane (inClass maskLow maskHigh (lane blocks[k] i))

/-! ### The machine as a whole -/

/-- R34, R170: what a reset leaves: the configuration as configured, the gate unchecked, no carry, no response, and no
staging byte with a value (the last three the MODEL's, log entries 2, 4, 5). -/
def Obligations.PowerOnValues : Prop :=
  ∀ c : Config, (State.powerOn c).cfg = c ∧ (State.powerOn c).gate = .unchecked ∧
    (∀ a, Memory.byteAt (State.powerOn c).stg a = none) ∧ (∀ k, (State.powerOn c).carryOf k = none) ∧
    (State.powerOn c).responses = [] ∧ (∃ d, State.reset = State.powerOn d)

/-- After R171: a reset between two blocks keeps the configuration and every stream's carry, closes the gate, and the
next `CHKCAP` answers what it would have answered before. That the host's pending actions and the responses it has
received stay is the MODEL's (log entry 11). -/
def Obligations.ResetInMidStreamKeepsTheCarries : Prop :=
  ∀ (s : State) (rest : List HostAction), s.pending = .resetBlock :: rest →
    ∃ t, step s = .next t ∧ t.cfg = s.cfg ∧ t.gate = .unchecked ∧ (∀ k, t.carryOf k = s.carryOf k) ∧
      t.responses = s.responses ∧ t.pending = rest ∧
      (∀ i, i.wellFormed t.cfg.width = true → i ≠ .chkcap → exec i t = .refused .capabilityNotEstablished) ∧
      ∃ st, exec .chkcap s = .next { s with gate := gateOfStatus st, responses := s.responses ++ [.status st] } ∧
        exec .chkcap t = .next { t with gate := gateOfStatus st, responses := t.responses ++ [.status st] }

/-- R23, R5: no step of a run changes the configuration. -/
def Obligations.ConfigurationNeverChanges : Prop :=
  ∀ (n : Nat) (s t : State), run n s = .next t → t.cfg = s.cfg

/-- R27, R14: nothing a run delivers or does depends on what the staging buffer held before it. -/
def Obligations.StagingIsNotObservable : Prop :=
  ∀ (n : Nat) (s : State) (m : Memory), withoutStaging (run n (s.setStg m)) = withoutStaging (run n s)

/-- R14, R115 (a), R128 (e): the response of an operation is a function of its operands and the configuration alone:
two states of one configuration that both execute it deliver the same response. -/
def Obligations.ResponseDependsOnOperandsOnly : Prop :=
  ∀ (i : Instr) (s t s' t' : State), s.cfg = s'.cfg → exec i s = .next t → exec i s' = .next t' →
    ∃ r, t.responses = s.responses ++ [r] ∧ t'.responses = s'.responses ++ [r]

/-- R160: steps of two different instances commute: the order in which instances act changes nothing. That a number
which names no instance steps nothing is the MODEL's choice (log entry 14); a step that is refused or faults is no case
here (log entry 19). -/
def Obligations.InstancesAreIndependent : Prop :=
  ∀ (j k : Nat) (a b c : List State), j ≠ k → stepInstance j a = .next b → stepInstance k b = .next c →
    ∃ d, stepInstance k a = .next d ∧ stepInstance j d = .next c

/-- The invariant holds right after reset, for every configuration. -/
def Obligations.ResetIsLegal : Prop :=
  (∀ c : Config, (State.powerOn c).legal = true) ∧ State.reset.legal = true

/-- Every step keeps the invariant: gate and configuration agree, the staging buffer is canonical and inside
`0 .. 2S-1`, every carry and every delivered vector is a MatchVector of the instance's width. -/
def Obligations.StepKeepsTheStateLegal : Prop :=
  ∀ s t : State, s.legal = true → step s = .next t → t.legal = true
end

