-- ==== Sys2Proof/Laws/VectorLane.lean ====
section
/-! SUPPORT. One lemma per primitive: its length and its lanes (41_vector_lane_primitives.md). -/

namespace Sys2Proof.Machine

@[simp] theorem bytes_pos (w : LaneWidth) : 0 < w.bytes := by cases w <;> decide

@[simp] theorem length_buildVec (n : Nat) (f : Nat → Byte) : (buildVec n f).length = n := by
  simp [buildVec]

theorem lane_buildVec {n i : Nat} (h : i < n) (f : Nat → Byte) : lane (buildVec n f) i = f i := by
  simp [lane, buildVec, h]

theorem lane_eq_getElem {v : Vec} {i : Nat} (h : i < v.length) : lane v i = v[i] := by
  simp [lane, h]

/-- Two vectors of one length with the same lanes are equal. -/
theorem vec_ext {a b : Vec} (hl : a.length = b.length) (h : ∀ i < a.length, lane a i = lane b i) : a = b := by
  refine List.ext_getElem hl fun i h1 h2 => ?_
  simpa [lane_eq_getElem, h1, h2] using h i h1

@[simp] theorem length_broadcast (w : LaneWidth) (b : Byte) : (broadcast w b).length = w.bytes := by
  simp [broadcast]

theorem lane_broadcast {w : LaneWidth} {i : Nat} (h : i < w.bytes) (b : Byte) : lane (broadcast w b) i = b :=
  lane_buildVec h _

@[simp] theorem length_vand (a b : Vec) : (vand a b).length = min a.length b.length := by
  simp [vand]

theorem lane_vand {a b : Vec} {i : Nat} (ha : i < a.length) (hb : i < b.length) :
    lane (vand a b) i = lane a i &&& lane b i := by
  simp [lane, vand, ha, hb]

@[simp] theorem length_vor (a b : Vec) : (vor a b).length = min a.length b.length := by
  simp [vor]

theorem lane_vor {a b : Vec} {i : Nat} (ha : i < a.length) (hb : i < b.length) :
    lane (vor a b) i = lane a i ||| lane b i := by
  simp [lane, vor, ha, hb]

theorem lane_vandnotBy {a b : Vec} {i : Nat} (ha : i < a.length) (hb : i < b.length) (order : AndNotOrder) :
    lane (vandnotBy order a b) i = match order with
      | .complementFirst => (~~~(lane a i)) &&& lane b i
      | .complementSecond => lane a i &&& (~~~(lane b i)) := by
  cases order <;> simp [lane, vandnotBy, ha, hb]

@[simp] theorem length_eqZero (a : Vec) : (eqZero a).length = a.length := by simp [eqZero]

theorem lane_eqZero {a : Vec} {i : Nat} (h : i < a.length) :
    lane (eqZero a) i = laneOfBool (lane a i == 0x00#8) := by
  simp [lane, eqZero, h]

@[simp] theorem length_eqOnes (a : Vec) : (eqOnes a).length = a.length := by simp [eqOnes]

theorem lane_eqOnes {a : Vec} {i : Nat} (h : i < a.length) :
    lane (eqOnes a) i = laneOfBool (lane a i == 0xFF#8) := by
  simp [lane, eqOnes, h]

@[simp] theorem length_shr4_64 (a : Vec) : (shr4_64 a).length = a.length := by simp [shr4_64]

theorem subLaneWord_toNat (a : Vec) (k : Nat) : (subLaneWord a k).toNat =
    (lane a (8 * k)).toNat + (lane a (8 * k + 1)).toNat * 256 ^ 1 + (lane a (8 * k + 2)).toNat * 256 ^ 2
      + (lane a (8 * k + 3)).toNat * 256 ^ 3 + (lane a (8 * k + 4)).toNat * 256 ^ 4
      + (lane a (8 * k + 5)).toNat * 256 ^ 5 + (lane a (8 * k + 6)).toNat * 256 ^ 6
      + (lane a (8 * k + 7)).toNat * 256 ^ 7 := by
  have h0 := (lane a (8 * k)).isLt
  have h1 := (lane a (8 * k + 1)).isLt
  have h2 := (lane a (8 * k + 2)).isLt
  have h3 := (lane a (8 * k + 3)).isLt
  have h4 := (lane a (8 * k + 4)).isLt
  have h5 := (lane a (8 * k + 5)).isLt
  have h6 := (lane a (8 * k + 6)).isLt
  have h7 := (lane a (8 * k + 7)).isLt
  rw [subLaneWord, BitVec.toNat_ofNat, Nat.mod_eq_of_lt]
  omega

/-- Lane `8k + j` of the shifted vector as a number: byte `j` of the sub-lane's integer divided by 16 (R95). -/
theorem lane_shr4_64_toNat {a : Vec} {k j : Nat} (hj : j < 8) (h : 8 * k + j < a.length) :
    (lane (shr4_64 a) (8 * k + j)).toNat = (subLaneWord a k).toNat / 16 / 256 ^ j % 256 := by
  have hk : (8 * k + j) / 8 = k := by omega
  have hm : (8 * k + j) % 8 = j := by omega
  have hp : (2 : Nat) ^ (8 * j) = 256 ^ j := by rw [pow_mul]; norm_num
  rw [shr4_64, lane_buildVec h]
  simp [subLaneLanes, hk, hm, BitVec.toNat_ushiftRight, Nat.shiftRight_eq_div_pow, hp]

/-- The leakage formula of R95. -/
theorem lane_shr4_64 {a : Vec} {k j : Nat} (hj : j < 8) (h : 8 * k + j < a.length) :
    (lane (shr4_64 a) (8 * k + j)).toNat = (lane a (8 * k + j)).toNat / 16
      + (if j = 7 then 0 else (lane a (8 * k + j + 1)).toNat % 16 * 16) := by
  have h0 := (lane a (8 * k)).isLt
  have h1 := (lane a (8 * k + 1)).isLt
  have h2 := (lane a (8 * k + 2)).isLt
  have h3 := (lane a (8 * k + 3)).isLt
  have h4 := (lane a (8 * k + 4)).isLt
  have h5 := (lane a (8 * k + 5)).isLt
  have h6 := (lane a (8 * k + 6)).isLt
  have h7 := (lane a (8 * k + 7)).isLt
  rw [lane_shr4_64_toNat hj h, subLaneWord_toNat]
  interval_cases j <;> norm_num [Nat.add_assoc] <;> omega

theorem byte_and_low (b : Byte) : (b &&& 0x0F#8).toNat = b.toNat % 16 := by
  rw [BitVec.toNat_and]; exact Nat.and_two_pow_sub_one_eq_mod _ 4

theorem byte_shr_four (b : Byte) : (b >>> 4).toNat = b.toNat / 16 := by
  rw [BitVec.toNat_ushiftRight]; exact Nat.shiftRight_eq_div_pow _ _

/-- What survives the mask is the high nibble of the same lane (R95). -/
theorem lane_shr4_64_masked {a : Vec} {i : Nat} (h : i < a.length) :
    lane (shr4_64 a) i &&& 0x0F#8 = lane a i >>> 4 := by
  have hi : 8 * (i / 8) + i % 8 = i := by omega
  have hs := lane_shr4_64 (a := a) (k := i / 8) (j := i % 8) (by omega) (by omega)
  rw [hi] at hs
  have hb := (lane a i).isLt
  apply BitVec.eq_of_toNat_eq
  rw [byte_and_low, byte_shr_four, hs]
  split <;> omega

@[simp] theorem length_nibbleIndices (v : Vec) : (nibbleIndices v).length = v.length := by simp [nibbleIndices]

theorem nibbleIndices_toNat {v : Vec} {i : Nat} (h : i < v.length) :
    ((nibbleIndices v).getD i 0#4).toNat = (lane v i).toNat % 16 := by
  simp [nibbleIndices, lane, h]

@[simp] theorem length_lookup16 (m : Vec) (idx : List Nibble) : (lookup16 m idx).length = idx.length := by
  simp [lookup16]

theorem lane_lookup16 {m : Vec} {idx : List Nibble} {i : Nat} (h : i < idx.length) :
    lane (lookup16 m idx) i = lane m (16 * (i / 16) + (idx.getD i 0#4).toNat) := by
  rw [lookup16, lane_buildVec h]

/-! ### Tiled tables -/

theorem tiled_iff {m : Vec} : tiled m = true ↔ ∀ i < m.length, lane m i = lane m (i % 16) := by
  simp [tiled]

@[simp] theorem length_tile (w : LaneWidth) (t : Vec) : (tile w t).length = w.bytes := by simp [tile]

theorem lane_tile {w : LaneWidth} {i : Nat} (h : i < w.bytes) (t : Vec) : lane (tile w t) i = lane t (i % 16) :=
  lane_buildVec h _

theorem tiled_tile (w : LaneWidth) (t : Vec) : tiled (tile w t) = true := by
  refine tiled_iff.2 fun i hi => ?_
  rw [length_tile] at hi
  have : i % 16 < w.bytes := by cases w <;> simp [LaneWidth.bytes] <;> omega
  rw [lane_tile hi, lane_tile this, Nat.mod_mod]

theorem lane_tableOf {n : Nat} (h : n < 16) (m : Vec) : lane (tableOf m) n = lane m n := lane_buildVec h _

theorem lane_tableOf_tile {n : Nat} (h : n < 16) (w : LaneWidth) (t : Vec) :
    lane (tableOf (tile w t)) n = lane t n := by
  have : n < w.bytes := by cases w <;> simp [LaneWidth.bytes] <;> omega
  rw [lane_tableOf h, lane_tile this, Nat.mod_eq_of_lt h]

theorem group_bound {w : LaneWidth} {i n : Nat} (hi : i < w.bytes) (hn : n < 16) :
    16 * (i / 16) + n < w.bytes := by
  cases w <;> simp only [LaneWidth.bytes] at * <;> omega

/-- A lookup in a tiled table does not depend on the group (R98). -/
theorem lane_lookup16_tiled {w : LaneWidth} {m : Vec} {idx : List Nibble} {i : Nat} (hm : m.length = w.bytes)
    (ht : tiled m = true) (hi : i < w.bytes) (hidx : i < idx.length) :
    lane (lookup16 m idx) i = lane (tableOf m) (idx.getD i 0#4).toNat := by
  have hn : (idx.getD i 0#4).toNat < 16 := (idx.getD i 0#4).isLt
  have hb := group_bound hi hn
  rw [lane_lookup16 hidx, lane_tableOf hn, tiled_iff.1 ht _ (by omega)]
  congr 1; omega

/-! ### MatchVectors -/

theorem isMatchVector_iff {v : Vec} : isMatchVector v = true ↔ ∀ i < v.length, lane v i = 0x00#8 ∨ lane v i = 0xFF#8 := by
  simp only [isMatchVector, List.all_eq_true, Bool.or_eq_true, beq_iff_eq]
  constructor
  · intro h i hi
    rw [lane_eq_getElem hi]; exact h _ (List.getElem_mem hi)
  · intro h b hb
    obtain ⟨i, hi, rfl⟩ := List.getElem_of_mem hb
    rw [← lane_eq_getElem hi]; exact h i hi

theorem laneOfBool_cases (c : Bool) : laneOfBool c = 0x00#8 ∨ laneOfBool c = 0xFF#8 := by
  cases c <;> simp [laneOfBool]

theorem isMatchVector_eqZero (a : Vec) : isMatchVector (eqZero a) = true := by
  refine isMatchVector_iff.2 fun i hi => ?_
  rw [lane_eqZero (by simpa using hi)]; exact laneOfBool_cases _

theorem isMatchVector_eqOnes (a : Vec) : isMatchVector (eqOnes a) = true := by
  refine isMatchVector_iff.2 fun i hi => ?_
  rw [lane_eqOnes (by simpa using hi)]; exact laneOfBool_cases _

end Sys2Proof.Machine
end

