-- ==== Sys2Proof/Laws/Decode.lean ====
section
/-! SUPPORT. The opcode, the operands of a payload, and how long a request is (30_encoding.md). -/

namespace Sys2Proof

@[simp] theorem formatOfOpcode_opcodeOf (f : Format) : formatOfOpcode (opcodeOf f) = some f := by
  cases f <;> decide

/-- The opcode of a format is the byte that selects it. -/
theorem opcode_of_format {b : Byte} {f : Format} (h : formatOfOpcode b = some f) : b = opcodeOf f := by
  unfold formatOfOpcode at h
  split at h
  · cases h; assumption
  · split at h
    · cases h; assumption
    · split at h
      · cases h; assumption
      · cases h

/-- An opcode byte is reserved exactly from `0x03` on (R69). -/
theorem formatOfOpcode_eq_none {b : Byte} : formatOfOpcode b = none ↔ 3 ≤ b.toNat := by
  unfold formatOfOpcode
  constructor
  · intro h
    split at h
    · cases h
    · split at h
      · cases h
      · split at h
        · cases h
        · rename_i h0 h1 h2
          have a0 : b.toNat ≠ 0 := fun e => h0 (BitVec.eq_of_toNat_eq e)
          have a1 : b.toNat ≠ 1 := fun e => h1 (BitVec.eq_of_toNat_eq e)
          have a2 : b.toNat ≠ 2 := fun e => h2 (BitVec.eq_of_toNat_eq e)
          omega
  · intro h
    rw [if_neg, if_neg, if_neg] <;> rintro rfl <;> simp at h

theorem hasWidth_iff {w : LaneWidth} {v : Vec} : Vec.hasWidth w v = true ↔ v.length = w.bytes := by
  simp [Vec.hasWidth]

theorem classify_wellFormed_iff {w : LaneWidth} {maskLow maskHigh chars : Vec} :
    (Instr.classify maskLow maskHigh chars).wellFormed w = true ↔
      maskLow.length = w.bytes ∧ maskHigh.length = w.bytes ∧ chars.length = w.bytes := by
  simp [Instr.wellFormed, Instr.operands, hasWidth_iff]

theorem classifyPair_wellFormed_iff {w : LaneWidth} {mask1Low mask1High mask2Low mask2High carryIn chars : Vec} :
    (Instr.classifyPair mask1Low mask1High mask2Low mask2High carryIn chars).wellFormed w = true ↔
      mask1Low.length = w.bytes ∧ mask1High.length = w.bytes ∧ mask2Low.length = w.bytes ∧
      mask2High.length = w.bytes ∧ carryIn.length = w.bytes ∧ chars.length = w.bytes := by
  simp [Instr.wellFormed, Instr.operands, hasWidth_iff]

/-- An operand that lies inside the payload has the instance's width. -/
theorem length_payloadOperand {w : LaneWidth} {payload : List Byte} {n k : Nat} (hl : payload.length = n * w.bytes)
    (hk : k < n) : (payloadOperand w payload k).length = w.bytes := by
  have h : (k + 1) * w.bytes ≤ n * w.bytes := Nat.mul_le_mul_right _ hk
  rw [Nat.succ_mul] at h
  simp only [payloadOperand, List.length_take, List.length_drop]
  omega

/-- Lane `i` of operand `k` is byte `k*S + i` of the payload (R63). -/
theorem lane_payloadOperand {w : LaneWidth} (payload : List Byte) (k : Nat) {i : Nat} (h : i < w.bytes) :
    Machine.lane (payloadOperand w payload k) i = payload.getD (k * w.bytes + i) 0x00#8 := by
  simp [Machine.lane, payloadOperand, List.getD_eq_getElem?_getD, h, List.getElem?_drop]

/-- Operand `k` of a payload made of vectors of the instance's width is the `k`-th of them. -/
theorem payloadOperand_flatten {w : LaneWidth} : ∀ {vs : List Vec} {k : Nat} (_ : ∀ v ∈ vs, v.length = w.bytes)
    (h : k < vs.length), payloadOperand w vs.flatten k = vs[k]
  | [], _, _, h => absurd h (Nat.not_lt_zero _)
  | v :: vs, 0, hv, _ => by
    have := hv v List.mem_cons_self
    simp [payloadOperand, ← this]
  | v :: vs, k + 1, hv, h => by
    have h0 := hv v List.mem_cons_self
    have ih := payloadOperand_flatten (vs := vs) (k := k) (fun u hu => hv u (List.mem_cons_of_mem _ hu))
      (by simpa using h)
    simp only [List.getElem_cons_succ, ← ih, payloadOperand, List.flatten_cons]
    rw [Nat.succ_mul, Nat.add_comm (k * w.bytes), ← h0, ← List.drop_drop, List.drop_left]

theorem length_flatten_operands {w : LaneWidth} {i : Instr} (h : i.wellFormed w = true) :
    i.operands.flatten.length = i.format.operandCount * w.bytes := by
  cases i with
  | chkcap => simp [Instr.operands, Instr.format, Format.operandCount]
  | classify a b c =>
    obtain ⟨ha, hb, hc⟩ := classify_wellFormed_iff.1 h
    simp [Instr.operands, Instr.format, Format.operandCount, ha, hb, hc]; omega
  | classifyPair a b c d e f =>
    obtain ⟨ha, hb, hc, hd, he, hf⟩ := classifyPair_wellFormed_iff.1 h
    simp [Instr.operands, Instr.format, Format.operandCount, ha, hb, hc, hd, he, hf]; omega

/-- What decoding answers on a non-empty request. -/
theorem decode_cons (w : LaneWidth) (opcode : Byte) (payload : List Byte) : decode w (opcode :: payload) =
    match formatOfOpcode opcode with
    | none => .invalid .reservedOpcode
    | some f =>
      if payload.length + 1 = f.requestLength w then .instr (assemble w payload f) else .invalid .badLength := rfl

/-- If a request decodes to an operation, its first byte selects a format, its length is the format's, and the
operation is assembled from the payload. -/
theorem decode_instr_cases {w : LaneWidth} {request : List Byte} {i : Instr} (h : decode w request = .instr i) :
    ∃ f payload, request = opcodeOf f :: payload ∧ payload.length = f.operandCount * w.bytes ∧
      i = assemble w payload f := by
  cases request with
  | nil => cases h
  | cons b payload =>
    rw [decode_cons] at h
    cases hf : formatOfOpcode b with
    | none => rw [hf] at h; cases h
    | some f =>
      rw [hf] at h
      simp only at h
      split at h
      · rename_i hl
        cases h
        exact ⟨f, payload, by rw [opcode_of_format hf], by rw [Format.requestLength] at hl; omega, rfl⟩
      · cases h

end Sys2Proof
end

