-- ==== Sys2Proof/Laws/State.lean ====
section
/-! SUPPORT. One lemma per field per state update, each true by unfolding. -/

namespace Sys2Proof.Machine

variable (s : State) (r : Response) (g : Gate) (m : Memory) (p : List HostAction) (k j : Nat) (v : Vec)

/-! ### A delivered response -/

@[simp] theorem respond_cfg : (s.respond r).cfg = s.cfg := rfl
@[simp] theorem respond_gate : (s.respond r).gate = s.gate := rfl
@[simp] theorem respond_stg : (s.respond r).stg = s.stg := rfl
@[simp] theorem respond_carries : (s.respond r).carries = s.carries := rfl
@[simp] theorem respond_pending : (s.respond r).pending = s.pending := rfl
@[simp] theorem respond_responses : (s.respond r).responses = s.responses ++ [r] := rfl

/-! ### The gate -/

@[simp] theorem setGate_cfg : (s.setGate g).cfg = s.cfg := rfl
@[simp] theorem setGate_gate : (s.setGate g).gate = g := rfl
@[simp] theorem setGate_stg : (s.setGate g).stg = s.stg := rfl
@[simp] theorem setGate_carries : (s.setGate g).carries = s.carries := rfl
@[simp] theorem setGate_pending : (s.setGate g).pending = s.pending := rfl
@[simp] theorem setGate_responses : (s.setGate g).responses = s.responses := rfl

/-! ### The staging buffer -/

@[simp] theorem setStg_cfg : (s.setStg m).cfg = s.cfg := rfl
@[simp] theorem setStg_gate : (s.setStg m).gate = s.gate := rfl
@[simp] theorem setStg_stg : (s.setStg m).stg = m := rfl
@[simp] theorem setStg_carries : (s.setStg m).carries = s.carries := rfl
@[simp] theorem setStg_pending : (s.setStg m).pending = s.pending := rfl
@[simp] theorem setStg_responses : (s.setStg m).responses = s.responses := rfl

/-! ### What the host does next -/

@[simp] theorem setPending_cfg : (s.setPending p).cfg = s.cfg := rfl
@[simp] theorem setPending_gate : (s.setPending p).gate = s.gate := rfl
@[simp] theorem setPending_stg : (s.setPending p).stg = s.stg := rfl
@[simp] theorem setPending_carries : (s.setPending p).carries = s.carries := rfl
@[simp] theorem setPending_pending : (s.setPending p).pending = p := rfl
@[simp] theorem setPending_responses : (s.setPending p).responses = s.responses := rfl

/-! ### The carries -/

@[simp] theorem setCarry_cfg : (s.setCarry k v).cfg = s.cfg := rfl
@[simp] theorem setCarry_gate : (s.setCarry k v).gate = s.gate := rfl
@[simp] theorem setCarry_stg : (s.setCarry k v).stg = s.stg := rfl
@[simp] theorem setCarry_carries : (s.setCarry k v).carries = setKey k v s.carries := rfl
@[simp] theorem setCarry_pending : (s.setCarry k v).pending = s.pending := rfl
@[simp] theorem setCarry_responses : (s.setCarry k v).responses = s.responses := rfl

@[simp] theorem dropCarry_cfg : (s.dropCarry k).cfg = s.cfg := rfl
@[simp] theorem dropCarry_gate : (s.dropCarry k).gate = s.gate := rfl
@[simp] theorem dropCarry_stg : (s.dropCarry k).stg = s.stg := rfl
@[simp] theorem dropCarry_carries : (s.dropCarry k).carries = eraseKey k s.carries := rfl
@[simp] theorem dropCarry_pending : (s.dropCarry k).pending = s.pending := rfl
@[simp] theorem dropCarry_responses : (s.dropCarry k).responses = s.responses := rfl

@[simp] theorem respond_carryOf : (s.respond r).carryOf j = s.carryOf j := rfl
@[simp] theorem setGate_carryOf : (s.setGate g).carryOf j = s.carryOf j := rfl
@[simp] theorem setStg_carryOf : (s.setStg m).carryOf j = s.carryOf j := rfl
@[simp] theorem setPending_carryOf : (s.setPending p).carryOf j = s.carryOf j := rfl

/-! ### Reset -/

@[simp] theorem resetInstance_cfg : s.resetInstance.cfg = s.cfg := rfl
@[simp] theorem resetInstance_gate : s.resetInstance.gate = .unchecked := rfl
@[simp] theorem resetInstance_stg : s.resetInstance.stg = [] := rfl
@[simp] theorem resetInstance_carries : s.resetInstance.carries = s.carries := rfl
@[simp] theorem resetInstance_pending : s.resetInstance.pending = s.pending := rfl
@[simp] theorem resetInstance_responses : s.resetInstance.responses = s.responses := rfl

end Sys2Proof.Machine
end

