-- ==== Sys2Proof/Laws/Keys.lean ====
section
/-! SUPPORT. Lists of keyed entries: reading after setting and erasing, and the canonical form they keep. -/

namespace Sys2Proof.Machine

variable {α : Type}

@[simp] theorem findKey_setKey_self (key : Nat) (value : α) (m : List (Nat × α)) :
    findKey key (setKey key value m) = some value := by
  induction m with
  | nil => simp [setKey, findKey]
  | cons e rest ih =>
    obtain ⟨k, v⟩ := e
    simp only [setKey]
    split
    · simp [findKey]
    · split
      · simp [findKey]
      · rename_i h; simp [findKey, Ne.symm h, ih]

theorem findKey_setKey_ne {key other : Nat} (h : other ≠ key) (value : α) (m : List (Nat × α)) :
    findKey other (setKey key value m) = findKey other m := by
  induction m with
  | nil => simp [setKey, findKey, Ne.symm h]
  | cons e rest ih =>
    obtain ⟨k, v⟩ := e
    simp only [setKey]
    split
    · simp [findKey, Ne.symm h]
    · split
      · rename_i hk; subst hk; simp [findKey, Ne.symm h]
      · simp [findKey, ih]

@[simp] theorem findKey_eraseKey_self (key : Nat) (m : List (Nat × α)) :
    findKey key (eraseKey key m) = none := by
  induction m with
  | nil => rfl
  | cons e rest ih =>
    obtain ⟨k, v⟩ := e
    simp only [eraseKey]
    split
    · exact ih
    · rename_i h; simp [findKey, h, ih]

theorem findKey_eraseKey_ne {key other : Nat} (h : other ≠ key) (m : List (Nat × α)) :
    findKey other (eraseKey key m) = findKey other m := by
  induction m with
  | nil => rfl
  | cons e rest ih =>
    obtain ⟨k, v⟩ := e
    simp only [eraseKey]
    split
    · rename_i hk; subst hk; simp [findKey, Ne.symm h, ih]
    · simp [findKey, ih]

theorem keysRise_cons {k : Nat} {v : α} {rest : List (Nat × α)} :
    keysRise ((k, v) :: rest) = true ↔ (∀ e ∈ rest, k < e.1) ∧ keysRise rest = true := by
  simp [keysRise]

theorem mem_setKey {key : Nat} {value : α} {m : List (Nat × α)} {e : Nat × α}
    (h : e ∈ setKey key value m) : e = (key, value) ∨ e ∈ m := by
  induction m with
  | nil => simpa [setKey] using h
  | cons d rest ih =>
    obtain ⟨k, v⟩ := d
    simp only [setKey] at h
    split at h
    · simpa using h
    · split at h
      · rcases List.mem_cons.1 h with h | h
        · exact .inl h
        · exact .inr (List.mem_cons_of_mem _ h)
      · rcases List.mem_cons.1 h with h | h
        · exact .inr (h ▸ List.mem_cons_self)
        · exact (ih h).imp_right (List.mem_cons_of_mem _)

theorem mem_eraseKey {key : Nat} {m : List (Nat × α)} {e : Nat × α} (h : e ∈ eraseKey key m) : e ∈ m := by
  induction m with
  | nil => simp [eraseKey] at h
  | cons d rest ih =>
    obtain ⟨k, v⟩ := d
    simp only [eraseKey] at h
    split at h
    · exact List.mem_cons_of_mem _ (ih h)
    · rcases List.mem_cons.1 h with h | h
      · exact h ▸ List.mem_cons_self
      · exact List.mem_cons_of_mem _ (ih h)

/-- Setting an entry keeps the canonical form. -/
theorem keysRise_setKey (key : Nat) (value : α) {m : List (Nat × α)} (h : keysRise m = true) :
    keysRise (setKey key value m) = true := by
  induction m with
  | nil => simp [setKey, keysRise]
  | cons d rest ih =>
    obtain ⟨k, v⟩ := d
    obtain ⟨hk, hr⟩ := keysRise_cons.1 h
    simp only [setKey]
    split
    · rename_i hlt
      refine keysRise_cons.2 ⟨fun e he => ?_, h⟩
      rcases List.mem_cons.1 he with rfl | he
      · exact hlt
      · exact lt_trans hlt (hk e he)
    · split
      · rename_i heq; subst heq; exact keysRise_cons.2 ⟨hk, hr⟩
      · refine keysRise_cons.2 ⟨fun e he => ?_, ih hr⟩
        rcases mem_setKey he with rfl | he
        · show k < key; omega
        · exact hk e he

/-- Erasing an entry keeps the canonical form. -/
theorem keysRise_eraseKey (key : Nat) {m : List (Nat × α)} (h : keysRise m = true) :
    keysRise (eraseKey key m) = true := by
  induction m with
  | nil => rfl
  | cons d rest ih =>
    obtain ⟨k, v⟩ := d
    obtain ⟨hk, hr⟩ := keysRise_cons.1 h
    simp only [eraseKey]
    split
    · exact ih hr
    · exact keysRise_cons.2 ⟨fun e he => hk e (mem_eraseKey he), ih hr⟩

theorem findKey_mem {key : Nat} {value : α} {m : List (Nat × α)} (h : findKey key m = some value) :
    (key, value) ∈ m := by
  induction m with
  | nil => simp [findKey] at h
  | cons d rest ih =>
    obtain ⟨k, v⟩ := d
    simp only [findKey] at h
    split at h
    · rename_i hk; cases h; subst hk; exact List.mem_cons_self
    · exact List.mem_cons_of_mem _ (ih h)

/-! ### Carries -/

@[simp] theorem carryOf_setCarry_self (s : State) (k : Nat) (v : Vec) : (s.setCarry k v).carryOf k = some v :=
  findKey_setKey_self k v s.carries

theorem carryOf_setCarry_ne (s : State) {k j : Nat} (h : j ≠ k) (v : Vec) : (s.setCarry k v).carryOf j = s.carryOf j :=
  findKey_setKey_ne h v s.carries

@[simp] theorem carryOf_dropCarry_self (s : State) (k : Nat) : (s.dropCarry k).carryOf k = none :=
  findKey_eraseKey_self k s.carries

theorem carryOf_dropCarry_ne (s : State) {k j : Nat} (h : j ≠ k) : (s.dropCarry k).carryOf j = s.carryOf j :=
  findKey_eraseKey_ne h s.carries

end Sys2Proof.Machine
end

