-- ==== Sys2Proof/Laws/Memory.lean ====
section
/-! SUPPORT. The staging buffer: reading after writing, and the canonical form every operation keeps (20_memory.md). -/

namespace Sys2Proof.Machine

@[simp] theorem byteAt_nil (a : Nat) : Memory.byteAt ([] : Memory) a = none := rfl

/-- Reading back what was placed, and everything else as before (R41, R48). -/
theorem byteAt_place (address : Nat) (v : Vec) (m : Memory) (a : Nat) :
    Memory.byteAt (Memory.place address v m) a =
      if address ≤ a ∧ a < address + v.length then some (lane v (a - address)) else Memory.byteAt m a := by
  induction v generalizing address m with
  | nil =>
    simp only [Memory.place, List.length_nil, Nat.add_zero]
    rw [if_neg (by omega)]
  | cons b rest ih =>
    rw [Memory.place, ih]
    by_cases h0 : a = address
    · subst h0
      rw [if_neg (by omega), if_pos (by simp)]
      simp [Memory.byteAt, lane]
    · by_cases h1 : address + 1 ≤ a ∧ a < address + 1 + rest.length
      · rw [if_pos h1, if_pos (by simp only [List.length_cons]; omega)]
        obtain ⟨n, hn⟩ : ∃ n, a - address = n + 1 := ⟨a - address - 1, by omega⟩
        rw [hn, show a - (address + 1) = n by omega]; simp [lane]
      · rw [if_neg h1, if_neg (by simp only [List.length_cons]; omega)]
        exact findKey_setKey_ne h0 b m

theorem wf_place (address : Nat) (v : Vec) {m : Memory} (h : Memory.wf m = true) :
    Memory.wf (Memory.place address v m) = true := by
  induction v generalizing address m with
  | nil => exact h
  | cons b rest ih => exact ih (address + 1) (keysRise_setKey address b h)

theorem place_bound {address bound : Nat} {v : Vec} {m : Memory} (hv : address + v.length ≤ bound)
    (h : ∀ e ∈ m, e.1 < bound) : ∀ e ∈ Memory.place address v m, e.1 < bound := by
  induction v generalizing address m with
  | nil => exact h
  | cons b rest ih =>
    simp only [List.length_cons] at hv
    refine ih (by omega) fun e he => ?_
    rcases mem_setKey he with rfl | he
    · show address < bound; omega
    · exact h e he

/-- A store answers the placed bytes, or faults outside the buffer; nothing else (R45, R46). -/
theorem store_eq (w : LaneWidth) (address : Nat) (v : Vec) (m : Memory) :
    Memory.store w address v m =
      if address + v.length ≤ 2 * w.bytes then .ok (Memory.place address v m) else .error (.stgNoAddress address) := rfl

/-- Every store keeps the canonical form. -/
theorem store_wf {w : LaneWidth} {address : Nat} {v : Vec} {m m' : Memory} (h : Memory.store w address v m = .ok m')
    (hm : Memory.wf m = true) : Memory.wf m' = true := by
  rw [store_eq] at h
  split at h
  · cases h; exact wf_place _ _ hm
  · cases h

/-- A read of bytes that all hold values answers them in address order (R10, R99). -/
theorem read_eq {w : LaneWidth} {m : Memory} (f : Nat → Byte) : ∀ {n address : Nat}, address + n ≤ 2 * w.bytes →
    (∀ j < n, Memory.byteAt m (address + j) = some (f j)) → Memory.read w address n m = .ok (buildVec n f)
  | 0, _, _, _ => rfl
  | n + 1, address, hb, h => by
    have h0 := h 0 (by omega)
    have hrest := read_eq (w := w) (m := m) (fun j => f (j + 1)) (n := n) (address := address + 1) (by omega)
      (fun j hj => by rw [show address + 1 + j = address + (j + 1) by omega]; exact h (j + 1) (by omega))
    have hrd : Memory.readByte w address m = .ok (f 0) := by
      rw [Nat.add_zero] at h0
      simp only [Memory.readByte, stagingBytes, h0]
      rw [if_pos (by omega)]
    simp only [Memory.read, hrd, hrest]
    simp [buildVec, List.range_succ_eq_map]

end Sys2Proof.Machine
end

