-- ==== Sys2Proof/Laws/Legal.lean ====
section
/-! SUPPORT. The invariant taken apart, and the canonical form of the staging buffer after reset. -/

namespace Sys2Proof.Machine

/-- The parts of the invariant. -/
theorem legal_iff {s : State} : s.legal = true ↔
    legalGate s.cfg s.gate = true ∧ Memory.wf s.stg = true ∧ (∀ e ∈ s.stg, e.1 < stagingBytes s.cfg.width) ∧
      keysRise s.carries = true ∧ (∀ e ∈ s.carries, legalMatchVector s.cfg.width e.2 = true) ∧
      ∀ r ∈ s.responses, legalResponse s.cfg r = true := by
  simp only [State.legal, legalStaging, legalCarries, and_assoc, Bool.and_eq_true, List.all_eq_true, decide_eq_true_eq]

theorem legalGate_cases {c : Config} {g : Gate} :
    legalGate c g = true ↔ g = .unchecked ∨ g = gateOfStatus (capabilityStatus c) := by
  simp [legalGate]

/-- The staging buffer of a reset instance is in canonical form. -/
theorem wf_powerOn (c : Config) : Memory.wf (State.powerOn c).stg = true := rfl

theorem wf_resetInstance (s : State) : Memory.wf s.resetInstance.stg = true := rfl

end Sys2Proof.Machine
end

