-- ==== Sys2Proof/Laws/Matchers.lean ====
section
/-! SUPPORT. What each shared operation of the matchers can do, said once. -/

namespace Sys2Proof.Machine

/-! ### The data path of CLASSIFY -/

@[simp] theorem length_classifyFn (w : LaneWidth) (maskLow maskHigh : Vec) {chars : Vec} (h : chars.length = w.bytes) :
    (classifyFn w maskLow maskHigh chars).length = w.bytes := by
  simp [classifyFn, h]

theorem isMatchVector_classifyFn (w : LaneWidth) (maskLow maskHigh chars : Vec) :
    isMatchVector (classifyFn w maskLow maskHigh chars) = true := isMatchVector_eqZero _

/-- Lane `i` of the data path of CLASSIFY, the tables read in the lane's own group. -/
theorem lane_classifyFn {w : LaneWidth} {maskLow maskHigh chars : Vec} (hc : chars.length = w.bytes) {i : Nat}
    (hi : i < w.bytes) : lane (classifyFn w maskLow maskHigh chars) i =
      laneOfBool ((lane maskLow (16 * (i / 16) + (lane chars i).toNat % 16) &&&
        lane maskHigh (16 * (i / 16) + (lane chars i).toNat / 16)) == 0x00#8) := by
  have hb := (lane chars i).isLt
  have hlo : i < (vand chars (broadcast w 0x0F#8)).length := by simp [hc, hi]
  have hhi : i < (vand (shr4_64 chars) (broadcast w 0x0F#8)).length := by simp [hc, hi]
  have e1 : ((nibbleIndices (vand chars (broadcast w 0x0F#8))).getD i 0#4).toNat = (lane chars i).toNat % 16 := by
    rw [nibbleIndices_toNat hlo, lane_vand (by omega) (by simpa using hi), lane_broadcast hi, byte_and_low]; omega
  have e2 : ((nibbleIndices (vand (shr4_64 chars) (broadcast w 0x0F#8))).getD i 0#4).toNat
      = (lane chars i).toNat / 16 := by
    rw [nibbleIndices_toNat hhi, lane_vand (by simp [hc, hi]) (by simpa using hi), lane_broadcast hi,
      lane_shr4_64_masked (by omega), byte_shr_four]; omega
  simp only [classifyFn]
  rw [lane_eqZero (by simp [hc, hi]), lane_vand (by simp [hc, hi]) (by simp [hc, hi]),
    lane_lookup16 (by simp [hc, hi]), lane_lookup16 (by simp [hc, hi]), e1, e2]

theorem classOf_eq (low high : Vec) (b : Byte) :
    classOf low high b = ((lane low (b.toNat % 16) &&& lane high (b.toNat / 16)) == 0x00#8) := by
  rw [classOf, byte_and_low, byte_shr_four]

/-- With tiled tables a lane says whether its byte is in the class of the tables (R111). -/
theorem lane_classifyFn_tiled {w : LaneWidth} {maskLow maskHigh chars : Vec} (hl : maskLow.length = w.bytes)
    (hh : maskHigh.length = w.bytes) (tl : tiled maskLow = true) (th : tiled maskHigh = true)
    (hc : chars.length = w.bytes) {i : Nat} (hi : i < w.bytes) :
    lane (classifyFn w maskLow maskHigh chars) i =
      laneOfBool (classOf (tableOf maskLow) (tableOf maskHigh) (lane chars i)) := by
  have hb := (lane chars i).isLt
  have hlo : (lane chars i).toNat % 16 < 16 := by omega
  have hhi : (lane chars i).toNat / 16 < 16 := by omega
  have b1 := group_bound hi hlo
  have b2 := group_bound hi hhi
  rw [lane_classifyFn hc hi, classOf_eq, lane_tableOf hlo, lane_tableOf hhi, tiled_iff.1 tl _ (by omega),
    tiled_iff.1 th _ (by omega), Nat.mul_add_mod, Nat.mul_add_mod, Nat.mod_eq_of_lt hlo, Nat.mod_eq_of_lt hhi]

/-! ### The staging sequence -/

/-- The window read back through the staging buffer, lane by lane (R123). -/
def shiftedLanes (w : LaneWidth) (carryIn c1 : Vec) : Vec :=
  buildVec w.bytes fun i => if i = 0 then lane carryIn (w.bytes - 1) else lane c1 (i - 1)

/-- The staging sequence never faults on vectors of the instance's width: it answers the shifted vector and leaves
`carryIn` and `c1` in the buffer (R123, R46). -/
theorem stagingShift_eq {w : LaneWidth} {carryIn c1 : Vec} (hi : carryIn.length = w.bytes) (h1 : c1.length = w.bytes)
    (m : Memory) : stagingShift w carryIn c1 m =
      .ok (shiftedLanes w carryIn c1, Memory.place w.bytes c1 (Memory.place 0 carryIn m)) := by
  have hp := bytes_pos w
  have s1 : vstore w 0 carryIn m = .ok (Memory.place 0 carryIn m) := by
    rw [vstore, store_eq, if_pos (by omega)]
  have s2 : vstore w w.bytes c1 (Memory.place 0 carryIn m) = .ok (Memory.place w.bytes c1 (Memory.place 0 carryIn m)) := by
    rw [vstore, store_eq, if_pos (by omega)]
  have s3 : vload w (w.bytes - 1) (Memory.place w.bytes c1 (Memory.place 0 carryIn m))
      = .ok (shiftedLanes w carryIn c1) := by
    rw [vload, shiftedLanes]
    refine read_eq _ (by omega) fun j hj => ?_
    rw [byteAt_place, byteAt_place]
    by_cases h0 : j = 0
    · subst h0
      rw [if_neg (by omega), if_pos (by omega)]; simp
    · rw [if_pos (by omega), if_neg h0]; congr 2; omega
  simp only [stagingShift, s1, s2, s3]

@[simp] theorem length_shiftedLanes (w : LaneWidth) (carryIn c1 : Vec) : (shiftedLanes w carryIn c1).length = w.bytes := by
  simp [shiftedLanes]

theorem lane_shiftedLanes {w : LaneWidth} {i : Nat} (h : i < w.bytes) (carryIn c1 : Vec) :
    lane (shiftedLanes w carryIn c1) i = if i = 0 then lane carryIn (w.bytes - 1) else lane c1 (i - 1) :=
  lane_buildVec h _

theorem isMatchVector_pairLanes (a b : Vec) : isMatchVector (pairLanes a b) = true := isMatchVector_eqOnes _

@[simp] theorem length_pairLanes (a b : Vec) : (pairLanes a b).length = min a.length b.length := by simp [pairLanes]

theorem lane_pairLanes {a b : Vec} {i : Nat} (ha : i < a.length) (hb : i < b.length) :
    lane (pairLanes a b) i = laneOfBool ((lane a i &&& lane b i) == 0xFF#8) := by
  rw [pairLanes, lane_eqOnes (by simp; omega), lane_vand ha hb]

/-! ### The check before a matcher, and the meanings -/

/-- The check passes exactly when widths, gate and tiling are as they must be (R110, R120). -/
theorem matcherRefusal_eq_none {i : Instr} {s : State} : matcherRefusal i s = none ↔
    i.wellFormed s.cfg.width = true ∧ s.gate = .passed ∧ ∀ m ∈ i.masks, tiled m = true := by
  unfold matcherRefusal
  split
  · split
    · split <;> simp_all
    · simp_all
  · simp_all

theorem execChkcap_eq (s : State) : execChkcap s =
    .next ((s.setGate (gateOfStatus (capabilityStatus s.cfg))).respond (.status (capabilityStatus s.cfg))) := rfl

/-- If CLASSIFY answers a next state, its check passed and only a response was added. -/
theorem execClassify_next {maskLow maskHigh chars : Vec} {s t : State} (h : execClassify maskLow maskHigh chars s = .next t) :
    matcherRefusal (.classify maskLow maskHigh chars) s = none ∧
      t = s.respond (.matchVector (classifyFn s.cfg.width maskLow maskHigh chars)) := by
  unfold execClassify at h
  split at h
  · cases h
  · rename_i hr; cases h; exact ⟨hr, rfl⟩

/-- CLASSIFY when its check passes. -/
theorem execClassify_of_ok {maskLow maskHigh chars : Vec} {s : State}
    (h : matcherRefusal (.classify maskLow maskHigh chars) s = none) : execClassify maskLow maskHigh chars s =
      .next (s.respond (.matchVector (classifyFn s.cfg.width maskLow maskHigh chars))) := by
  simp [execClassify, h]

/-- CLASSIFY_PAIR when its check passes. -/
theorem execClassifyPair_of_ok {mask1Low mask1High mask2Low mask2High carryIn chars : Vec} {s : State}
    (h : matcherRefusal (.classifyPair mask1Low mask1High mask2Low mask2High carryIn chars) s = none) :
    execClassifyPair mask1Low mask1High mask2Low mask2High carryIn chars s =
      .next ((s.setStg (Memory.place s.cfg.width.bytes (classifyFn s.cfg.width mask1Low mask1High chars)
          (Memory.place 0 carryIn s.stg))).respond
        (.pair (pairLanes (shiftedLanes s.cfg.width carryIn (classifyFn s.cfg.width mask1Low mask1High chars))
            (classifyFn s.cfg.width mask2Low mask2High chars))
          (classifyFn s.cfg.width mask1Low mask1High chars))) := by
  obtain ⟨hw, -, -⟩ := matcherRefusal_eq_none.1 h
  obtain ⟨-, -, -, -, hi, hc⟩ := classifyPair_wellFormed_iff.1 hw
  simp [execClassifyPair, h, stagingShift_eq hi (length_classifyFn _ _ _ hc)]

/-- A matcher whose check fails is refused with the check's reason. -/
theorem execClassifyPair_of_refusal {mask1Low mask1High mask2Low mask2High carryIn chars : Vec} {s : State} {r : Refusal}
    (h : matcherRefusal (.classifyPair mask1Low mask1High mask2Low mask2High carryIn chars) s = some r) :
    execClassifyPair mask1Low mask1High mask2Low mask2High carryIn chars s = .refused r := by
  simp [execClassifyPair, h]

theorem execClassify_of_refusal {maskLow maskHigh chars : Vec} {s : State} {r : Refusal}
    (h : matcherRefusal (.classify maskLow maskHigh chars) s = some r) :
    execClassify maskLow maskHigh chars s = .refused r := by
  simp [execClassify, h]

/-- What CLASSIFY_PAIR can do: be refused by its check, or answer the pair response. -/
theorem execClassifyPair_cases (mask1Low mask1High mask2Low mask2High carryIn chars : Vec) (s : State) :
    (∃ r, matcherRefusal (.classifyPair mask1Low mask1High mask2Low mask2High carryIn chars) s = some r ∧
      execClassifyPair mask1Low mask1High mask2Low mask2High carryIn chars s = .refused r) ∨
    (matcherRefusal (.classifyPair mask1Low mask1High mask2Low mask2High carryIn chars) s = none ∧
      execClassifyPair mask1Low mask1High mask2Low mask2High carryIn chars s =
      .next ((s.setStg (Memory.place s.cfg.width.bytes (classifyFn s.cfg.width mask1Low mask1High chars)
          (Memory.place 0 carryIn s.stg))).respond
        (.pair (pairLanes (shiftedLanes s.cfg.width carryIn (classifyFn s.cfg.width mask1Low mask1High chars))
            (classifyFn s.cfg.width mask2Low mask2High chars))
          (classifyFn s.cfg.width mask1Low mask1High chars)))) := by
  cases h : matcherRefusal (.classifyPair mask1Low mask1High mask2Low mask2High carryIn chars) s with
  | some r => exact .inl ⟨r, rfl, execClassifyPair_of_refusal h⟩
  | none => exact .inr ⟨rfl, execClassifyPair_of_ok h⟩

/-- What an operation can do to the state, whichever it is: it adds one response and may change the gate (CHKCAP) or
the staging buffer (CLASSIFY_PAIR), and nothing else. -/
theorem exec_next_cases {i : Instr} {s t : State} (h : exec i s = .next t) :
    (i = .chkcap ∧
      t = (s.setGate (gateOfStatus (capabilityStatus s.cfg))).respond (.status (capabilityStatus s.cfg))) ∨
    (∃ maskLow maskHigh chars, i = .classify maskLow maskHigh chars ∧ matcherRefusal i s = none ∧
      t = s.respond (.matchVector (classifyFn s.cfg.width maskLow maskHigh chars))) ∨
    (∃ mask1Low mask1High mask2Low mask2High carryIn chars,
      i = .classifyPair mask1Low mask1High mask2Low mask2High carryIn chars ∧ matcherRefusal i s = none ∧
      t = (s.setStg (Memory.place s.cfg.width.bytes (classifyFn s.cfg.width mask1Low mask1High chars)
          (Memory.place 0 carryIn s.stg))).respond
        (.pair (pairLanes (shiftedLanes s.cfg.width carryIn (classifyFn s.cfg.width mask1Low mask1High chars))
            (classifyFn s.cfg.width mask2Low mask2High chars))
          (classifyFn s.cfg.width mask1Low mask1High chars))) := by
  cases i with
  | chkcap => exact .inl ⟨rfl, by cases h; rfl⟩
  | classify a b c =>
    obtain ⟨hr, ht⟩ := execClassify_next h
    exact .inr (.inl ⟨a, b, c, rfl, hr, ht⟩)
  | classifyPair a b c d e f =>
    rcases execClassifyPair_cases a b c d e f s with ⟨r, -, hr⟩ | ⟨hn, hr⟩
    · rw [exec, hr] at h; cases h
    · rw [exec, hr] at h; cases h
      exact .inr (.inr ⟨a, b, c, d, e, f, rfl, hn, rfl⟩)

end Sys2Proof.Machine
end

