-- ==== Sys2Proof/Laws/PerInstr.lean ====
section
/-! SUPPORT. Statements about every operation as a piece of the request format, one lemma per constructor. -/

namespace Sys2Proof.Laws

/-- The request of a well-formed operation has the length R61 gives its format. -/
def RequestLength.Statement (i : Instr) : Prop :=
  ∀ w : LaneWidth, i.wellFormed w = true → (encode i).length = i.format.requestLength w

theorem RequestLength.chkcap : RequestLength.Statement .chkcap := fun _ h => by
  simp only [encode, List.length_cons, length_flatten_operands h, Format.requestLength]; omega

theorem RequestLength.classify (maskLow maskHigh chars : Vec) :
    RequestLength.Statement (.classify maskLow maskHigh chars) := fun _ h => by
  simp only [encode, List.length_cons, length_flatten_operands h, Format.requestLength]; omega

theorem RequestLength.classifyPair (mask1Low mask1High mask2Low mask2High carryIn chars : Vec) :
    RequestLength.Statement (.classifyPair mask1Low mask1High mask2Low mask2High carryIn chars) := fun _ h => by
  simp only [encode, List.length_cons, length_flatten_operands h, Format.requestLength]; omega

end Sys2Proof.Laws
end

