-- ==== Sys2Proof/Laws/Step.lean ====
section
/-! SUPPORT. What a request, a host action and a step can do, said once. -/

namespace Sys2Proof.Machine

/-- What a request can do: be refused because it does not decode, or be the operation it decodes to (R157). -/
theorem submit_cases (request : List Byte) (s : State) :
    (∃ e, decode s.cfg.width request = .invalid e ∧ submit request s = .refused (refusalOfInvalid e)) ∨
    (∃ i, decode s.cfg.width request = .instr i ∧ submit request s = exec i s) := by
  cases h : decode s.cfg.width request with
  | invalid e => exact .inl ⟨e, rfl, by simp [submit, h]⟩
  | instr i => exact .inr ⟨i, rfl, by simp [submit, h]⟩

theorem submit_next {request : List Byte} {s t : State} (h : submit request s = .next t) :
    ∃ i, decode s.cfg.width request = .instr i ∧ exec i s = .next t := by
  rcases submit_cases request s with ⟨e, -, he⟩ | ⟨i, hd, he⟩
  · rw [he] at h; cases h
  · exact ⟨i, hd, he ▸ h⟩

/-- The parts of the state no operation touches: the configuration, the carries and what the host does next. -/
theorem exec_keeps {i : Instr} {s t : State} (h : exec i s = .next t) :
    t.cfg = s.cfg ∧ t.carries = s.carries ∧ t.pending = s.pending := by
  rcases exec_next_cases h with ⟨-, rfl⟩ | ⟨_, _, _, -, -, rfl⟩ | ⟨_, _, _, _, _, _, -, -, rfl⟩ <;> exact ⟨rfl, rfl, rfl⟩

/-- A request with the opcode of CLASSIFY_PAIR decodes, if it decodes, to a CLASSIFY_PAIR. -/
theorem decode_pair_request {w : LaneWidth} {a b c d e f : Vec} {i : Instr}
    (h : decode w (encode (.classifyPair a b c d e f)) = .instr i) :
    ∃ a' b' c' d' e' f', i = .classifyPair a' b' c' d' e' f' := by
  obtain ⟨fm, payload, hr, -, rfl⟩ := decode_instr_cases h
  simp only [encode, List.cons.injEq] at hr
  cases fm with
  | k => exact absurd hr.1 (show ¬opcodeOf .v6 = opcodeOf .k by decide)
  | v3 => exact absurd hr.1 (show ¬opcodeOf .v6 = opcodeOf .v3 by decide)
  | v6 => exact ⟨_, _, _, _, _, _, rfl⟩

/-- If a pair step answers a next state, the stream had a carry, the block answered a pair response, and that
response's carryOut is now the stream's carry (R137). -/
theorem performPairStep_next {stream : Nat} {a b c d block : Vec} {s t : State}
    (h : performPairStep stream a b c d block s = .next t) :
    ∃ carry u result carryOut, s.carryOf stream = some carry ∧
      submit (encode (.classifyPair a b c d carry block)) s = .next u ∧
      u.responses = s.responses ++ [.pair result carryOut] ∧ t = u.setCarry stream carryOut := by
  unfold performPairStep at h
  split at h
  · cases h
  · rename_i carry hcarry
    split at h
    · cases h
    · cases h
    · rename_i u hu
      obtain ⟨i, hd, he⟩ := submit_next hu
      obtain ⟨a', b', c', d', e', f', rfl⟩ := decode_pair_request hd
      rcases exec_next_cases he with ⟨h0, -⟩ | ⟨_, _, _, h0, -, -⟩ | ⟨_, _, _, _, _, _, -, -, rfl⟩
      · cases h0
      · cases h0
      · simp only [newestCarryOut, respond_responses, List.getLast?_append, List.getLast?_singleton] at h
        cases h
        exact ⟨carry, _, _, _, hcarry, hu, rfl, rfl⟩

/-- What a host action can do, if it answers a next state. -/
theorem perform_next_cases {act : HostAction} {s t : State} (h : perform act s = .next t) :
    (∃ request i, act = .issue request ∧ decode s.cfg.width request = .instr i ∧ exec i s = .next t) ∨
    (∃ stream, act = .startStream stream ∧ t = s.setCarry stream (neutralCarry s.cfg.width)) ∨
    (∃ stream a b c d block carry u result carryOut, act = .pairStep stream a b c d block ∧
      s.carryOf stream = some carry ∧ submit (encode (.classifyPair a b c d carry block)) s = .next u ∧
      u.responses = s.responses ++ [.pair result carryOut] ∧ t = u.setCarry stream carryOut) ∨
    (∃ stream, act = .endStream stream ∧ t = s.dropCarry stream) ∨
    (act = .resetBlock ∧ t = s.resetInstance) := by
  cases act with
  | issue request =>
    obtain ⟨i, hd, he⟩ := submit_next h
    exact .inl ⟨request, i, rfl, hd, he⟩
  | startStream stream => cases h; exact .inr (.inl ⟨stream, rfl, rfl⟩)
  | pairStep stream a b c d block =>
    obtain ⟨carry, u, r, co, h1, h2, h3, h4⟩ := performPairStep_next h
    exact .inr (.inr (.inl ⟨stream, a, b, c, d, block, carry, u, r, co, rfl, h1, h2, h3, h4⟩))
  | endStream stream => cases h; exact .inr (.inr (.inr (.inl ⟨stream, rfl, rfl⟩)))
  | resetBlock => cases h; exact .inr (.inr (.inr (.inr ⟨rfl, rfl⟩)))

/-- A step with nothing pending changes nothing; otherwise it performs the host's next action. -/
theorem step_nil {s : State} (h : s.pending = []) : step s = .next s := by simp [step, h]

theorem step_cons {s : State} {a : HostAction} {rest : List HostAction} (h : s.pending = a :: rest) :
    step s = perform a (s.setPending rest) := by simp [step, h]

/-- What a step can do, if it answers a next state. -/
theorem step_next_cases {s t : State} (h : step s = .next t) :
    (s.pending = [] ∧ t = s) ∨ (∃ a rest, s.pending = a :: rest ∧ perform a (s.setPending rest) = .next t) := by
  cases hp : s.pending with
  | nil => rw [step_nil hp] at h; cases h; exact .inl ⟨rfl, rfl⟩
  | cons a rest => rw [step_cons hp] at h; exact .inr ⟨a, rest, rfl, h⟩

end Sys2Proof.Machine
end

