-- ==== Sys2Proof/Machine/Text.lean ====
section
/-! DEFINITION. The textual form of an operation, results on the left of `<-` (30_encoding.md R72, decision D11). It
carries no meaning: nothing else of the model uses it. -/

namespace Sys2Proof.Machine

/-- One hexadecimal digit, upper case. -/
def hexDigit (n : Nibble) : Char := "0123456789ABCDEF".toList.getD n.toNat '0'

/-- A byte as two hexadecimal digits. -/
def hexByte (b : Byte) : List Char := [hexDigit ((b >>> 4).setWidth 4), hexDigit (b.setWidth 4)]

/-- A vector literal: its lanes as hexadecimal bytes, lane 0 leftmost. -/
def hexVec (v : Vec) : List Char := List.intercalate [' '] (v.map hexByte)

/-- The names the results of an operation are given. -/
def resultNames : Instr → List Char
  | .chkcap => "st".toList
  | .classify _ _ _ => "mv".toList
  | .classifyPair _ _ _ _ _ _ => "mv, carryOut".toList

/-- The line an operation is written as, its operands as vector literals. -/
def operationText (i : Instr) : List Char :=
  resultNames i ++ " <- ".toList ++ i.mnemonic.toList ++
    (if i.operands.isEmpty then [] else [' '] ++ List.intercalate [',', ' '] (i.operands.map hexVec))

end Sys2Proof.Machine
end

