-- ==== Sys2Proof/Tests/Slice0.lean ====
section
/-! SUPPORT. Tests with results taken from 95_test_vectors.md and the worked examples of the rules, the smoke test of
WellFormed, and for each statement with hypotheses a concrete case that meets them. -/

namespace Sys2Proof.Tests

open Sys2Proof.Machine

/-! ### Helpers -/

/-- An instance of width `w` whose gate has been passed. -/
def ready (w : LaneWidth) : State := (State.powerOn ⟨w, .portable, false⟩).setGate .passed

/-- An instance whose capability is absent. -/
def absent : State := State.powerOn ⟨.w16, .hwSpecific, false⟩

def isNext : Host.Outcome State Fault Refusal → Bool
  | .next _ => true
  | _ => false

def newest : Host.Outcome State Fault Refusal → Option Response
  | .next t => t.responses.getLast?
  | _ => none

def refusalOf : Host.Outcome State Fault Refusal → Option Refusal
  | .refused r => some r
  | _ => none

theorem exists_next {o : Host.Outcome State Fault Refusal} (h : isNext o = true) : ∃ t, o = .next t := by
  cases o with
  | next t => exact ⟨t, rfl⟩
  | fault f => cases h
  | refused r => cases h

/-- Tables of 95_test_vectors.md: `T_a` is the class of 'a', `T_b` of 'b', `T_d` of the digits. -/
def aLo : Vec := [0xFF, 0x01, 0xFF, 0xFF, 0xFF, 0xFF, 0xFF, 0xFF, 0xFF, 0xFF, 0xFF, 0xFF, 0xFF, 0xFF, 0xFF, 0xFF]
def aHi : Vec := [0x01, 0x01, 0x01, 0x01, 0x01, 0x01, 0x02, 0x01, 0x01, 0x01, 0x01, 0x01, 0x01, 0x01, 0x01, 0x01]
def bLo : Vec := [0xFF, 0xFF, 0x01, 0xFF, 0xFF, 0xFF, 0xFF, 0xFF, 0xFF, 0xFF, 0xFF, 0xFF, 0xFF, 0xFF, 0xFF, 0xFF]
def bHi : Vec := aHi
def dLo : Vec := [0x01, 0x01, 0x01, 0x01, 0x01, 0x01, 0x01, 0x01, 0x01, 0x01, 0x03, 0x03, 0x03, 0x03, 0x03, 0x03]
def dHi : Vec := [0x01, 0x01, 0x01, 0x02, 0x01, 0x01, 0x01, 0x01, 0x01, 0x01, 0x01, 0x01, 0x01, 0x01, 0x01, 0x01]

/-- Sixteen zero lanes, and fifteen of a byte before one other. -/
def z16 : Vec := List.replicate 16 0x00
def lastLane (x y : Byte) : Vec := List.replicate 15 x ++ [y]
/-- A byte before fifteen of another. -/
def firstLane (x y : Byte) : Vec := x :: List.replicate 15 y

/-! ### WellFormed: each operand's width is checked -/

theorem test_wellFormed_accepts : (Instr.classify aLo aHi z16).wellFormed .w16 = true ∧
    (Instr.classifyPair aLo aHi bLo bHi z16 z16).wellFormed .w16 = true ∧ Instr.chkcap.wellFormed .w64 = true := by decide

theorem test_wellFormed_refuses_classify : (Instr.classify [] aHi z16).wellFormed .w16 = false ∧
    (Instr.classify aLo [] z16).wellFormed .w16 = false ∧ (Instr.classify aLo aHi [0x61]).wellFormed .w16 = false ∧
    (Instr.classify aLo aHi z16).wellFormed .w32 = false := by decide

theorem test_wellFormed_refuses_pair : (Instr.classifyPair [] aHi bLo bHi z16 z16).wellFormed .w16 = false ∧
    (Instr.classifyPair aLo [] bLo bHi z16 z16).wellFormed .w16 = false ∧
    (Instr.classifyPair aLo aHi [] bHi z16 z16).wellFormed .w16 = false ∧
    (Instr.classifyPair aLo aHi bLo [] z16 z16).wellFormed .w16 = false ∧
    (Instr.classifyPair aLo aHi bLo bHi [] z16).wellFormed .w16 = false ∧
    (Instr.classifyPair aLo aHi bLo bHi z16 []).wellFormed .w16 = false := by decide

/-- Decision D27: no configuration of another width. -/
theorem test_config_width : Config.build? 48 .portable true = none ∧
    Config.build? 32 .portable true = some ⟨.w32, .portable, true⟩ := by decide

/-! ### Decode: requests written out byte by byte (95_test_vectors.md P1, P2, V10) -/

/-- R64: byte `00`. -/
theorem test_decode_chkcap : decode .w64 [0x00#8] = .instr .chkcap := by decide

/-- P1, request 2. -/
theorem test_decode_classify : decode .w16 [
    0x01, 0xFF, 0x01, 0xFF, 0xFF, 0xFF, 0xFF, 0xFF, 0xFF, 0xFF, 0xFF, 0xFF, 0xFF, 0xFF, 0xFF, 0xFF,
    0xFF, 0x01, 0x01, 0x01, 0x01, 0x01, 0x01, 0x02, 0x01, 0x01, 0x01, 0x01, 0x01, 0x01, 0x01, 0x01,
    0x01, 0x61, 0x61, 0x61, 0x62, 0x00, 0x00, 0x00, 0x00, 0x00, 0x00, 0x00, 0x00, 0x00, 0x00, 0x00,
    0x00] = .instr (.classify aLo aHi [0x61, 0x61, 0x61, 0x62, 0, 0, 0, 0, 0, 0, 0, 0, 0, 0, 0, 0]) := by decide

/-- P2, request 2. -/
theorem test_decode_pair : decode .w16 [
    0x02, 0xFF, 0x01, 0xFF, 0xFF, 0xFF, 0xFF, 0xFF, 0xFF, 0xFF, 0xFF, 0xFF, 0xFF, 0xFF, 0xFF, 0xFF,
    0xFF, 0x01, 0x01, 0x01, 0x01, 0x01, 0x01, 0x02, 0x01, 0x01, 0x01, 0x01, 0x01, 0x01, 0x01, 0x01,
    0x01, 0xFF, 0xFF, 0x01, 0xFF, 0xFF, 0xFF, 0xFF, 0xFF, 0xFF, 0xFF, 0xFF, 0xFF, 0xFF, 0xFF, 0xFF,
    0xFF, 0x01, 0x01, 0x01, 0x01, 0x01, 0x01, 0x02, 0x01, 0x01, 0x01, 0x01, 0x01, 0x01, 0x01, 0x01,
    0x01, 0x00, 0x00, 0x00, 0x00, 0x00, 0x00, 0x00, 0x00, 0x00, 0x00, 0x00, 0x00, 0x00, 0x00, 0x00,
    0x00, 0x78, 0x78, 0x78, 0x78, 0x78, 0x78, 0x78, 0x78, 0x78, 0x78, 0x78, 0x78, 0x78, 0x78, 0x78,
    0x61] = .instr (.classifyPair aLo aHi bLo bHi z16 (lastLane 0x78 0x61)) := by decide

/-- V10 d, f, g, and e: 97 bytes beginning `01` on an instance of width 16. -/
theorem test_decode_rejects : decode .w16 [0x03#8] = .invalid .reservedOpcode ∧
    decode .w16 [0xFF#8] = .invalid .reservedOpcode ∧ decode .w16 [] = .invalid .badLength ∧
    decode .w16 [0x00#8, 0x00#8] = .invalid .badLength ∧
    decode .w16 (0x01#8 :: List.replicate 96 0x00#8) = .invalid .badLength ∧
    decode .w16 (0x02#8 :: List.replicate 48 0x00#8) = .invalid .badLength := by decide

/-- opcode_table.json: each row's opcode byte with zero operands, and the first reserved one. -/
theorem test_decodeTableWord : decodeTableWord 8 0 = some .chkcap ∧ decodeTableWord 8 1 = some (.classify z16 z16 z16) ∧
    decodeTableWord 8 2 = some (.classifyPair z16 z16 z16 z16 z16 z16) ∧ decodeTableWord 8 3 = none := by decide

/-- The word placed by `withFetchWord` is the request of the very next step: `CHKCAP` is answered, and a matcher that
no `CHKCAP` has gone before is refused (V10 a). -/
theorem test_withFetchWord : newest (step (State.reset.withFetchWord 8 0)) = some (.status .success) ∧
    refusalOf (step (State.reset.withFetchWord 8 1)) = some .capabilityNotEstablished ∧
    newest (step ((State.reset.setGate .passed).withFetchWord 8 1))
      = some (.matchVector (List.replicate 16 0xFF)) := by decide

/-- R72: the textual form. -/
theorem test_text : operationText .chkcap = "st <- CHKCAP".toList := by decide

/-! ### Primitives (V7, R97) -/

theorem test_shr4_64 : shr4_64 [0x12, 0x34, 0x56, 0x78, 0x9A, 0xBC, 0xDE, 0xF0, 0xFF, 0x00, 0x00, 0x00, 0x00, 0x00, 0x00, 0x01]
    = [0x41, 0x63, 0x85, 0xA7, 0xC9, 0xEB, 0x0D, 0x0F, 0x0F, 0x00, 0x00, 0x00, 0x00, 0x00, 0x10, 0x00] := by decide

theorem test_lookup16_groups : lookup16 (buildVec 32 fun j => BitVec.ofNat 8 j) (List.replicate 32 3#4)
    = List.replicate 16 0x03 ++ List.replicate 16 0x13 := by decide

theorem test_lane_operations : vand [0x61, 0x3A, 0xFF, 0x00] [0x0F, 0x0F, 0x0F, 0x0F] = [0x01, 0x0A, 0x0F, 0x00] ∧
    vor [0x01] [0x02] = [0x03] ∧ eqZero [0x00, 0x02, 0x01, 0xFF, 0x80] = [0xFF, 0x00, 0x00, 0x00, 0x00] ∧
    eqOnes [0xFF, 0x00, 0x7F, 0xFE, 0x01] = [0xFF, 0x00, 0x00, 0x00, 0x00] ∧
    broadcast .w16 0x0F = List.replicate 16 0x0F := by decide

/-! ### CHKCAP (V4) -/

theorem test_chkcap_absent : newest (exec .chkcap absent) = some (.status .archError) := by decide

theorem test_chkcap_byte : (Response.status .archError).bytes = [0x01] ∧ (Response.status .success).bytes = [0x00] := by decide

/-! ### CLASSIFY (V1, V2, V6) -/

/-- V1, and V2 for the digits. -/
theorem test_classify : newest (exec (.classify aLo aHi [0x61, 0x61, 0x61, 0x62, 0, 0, 0, 0, 0, 0, 0, 0, 0, 0, 0, 0]) (ready .w16))
      = some (.matchVector [0xFF, 0xFF, 0xFF, 0, 0, 0, 0, 0, 0, 0, 0, 0, 0, 0, 0, 0]) ∧
    newest (exec (.classify dLo dHi
        [0x30, 0x39, 0x3A, 0x2F, 0x41, 0x35, 0x00, 0xFF, 0x39, 0x3A, 0x2F, 0x30, 0x20, 0x7A, 0x31, 0x39]) (ready .w16))
      = some (.matchVector [0xFF, 0xFF, 0, 0, 0, 0xFF, 0, 0, 0xFF, 0, 0, 0xFF, 0, 0, 0xFF, 0xFF]) := by decide

/-- V6: two groups. -/
theorem test_classify_w32 : newest (exec (.classify (tile .w32 aLo) (tile .w32 aHi)
      [0x61, 0x2E, 0x61, 0x61, 0x2E, 0x2E, 0x2E, 0x2E, 0x62, 0x62, 0x62, 0x62, 0x62, 0x62, 0x62, 0x61,
       0x41, 0x60, 0x71, 0x61, 0x51, 0x31, 0x21, 0x61, 0x2E, 0x2E, 0x2E, 0x2E, 0x2E, 0x2E, 0x2E, 0x2E]) (ready .w32))
    = some (.matchVector [0xFF, 0, 0xFF, 0xFF, 0, 0, 0, 0, 0, 0, 0, 0, 0, 0, 0, 0xFF,
       0, 0, 0, 0xFF, 0, 0, 0, 0xFF, 0, 0, 0, 0, 0, 0, 0, 0]) := by decide

/-! ### CLASSIFY_PAIR (V3, V9) -/

/-- V3 call 2, and the rows of V9 with `FE` and `FF` in the last carry lane. -/
theorem test_pair : newest (exec (.classifyPair aLo aHi bLo bHi (lastLane 0 0xFF) (firstLane 0x62 0x78)) (ready .w16))
      = some (.pair (firstLane 0xFF 0) z16) ∧
    newest (exec (.classifyPair aLo aHi bLo bHi (lastLane 0x12 0xFE) (0x62 :: List.replicate 14 0x78 ++ [0x61])) (ready .w16))
      = some (.pair z16 (lastLane 0 0xFF)) ∧
    newest (exec (.classifyPair aLo aHi bLo bHi (lastLane 0xFF 0xFF) (0x62 :: List.replicate 14 0x78 ++ [0x61])) (ready .w16))
      = some (.pair (firstLane 0xFF 0) (lastLane 0 0xFF)) := by decide

/-- V8: overlapping classes, the lane of the second byte. -/
theorem test_pair_overlap : newest (exec (.classifyPair aLo aHi aLo aHi z16
      ([0x61, 0x61, 0x61, 0x61] ++ List.replicate 12 0)) (ready .w16))
    = some (.pair ([0x00, 0xFF, 0xFF, 0xFF] ++ List.replicate 12 0) ([0xFF, 0xFF, 0xFF, 0xFF] ++ List.replicate 12 0)) := by decide

/-! ### Refusals (V10) -/

/-- V10 a, b and c: the gate, then the tiling. -/
theorem test_refusals : refusalOf (exec (.classify aLo aHi z16) (State.powerOn ⟨.w16, .portable, false⟩)) = some .capabilityNotEstablished ∧
    refusalOf (exec (.classifyPair aLo aHi bLo bHi z16 z16) (absent.setGate .failed)) = some .capabilityNotEstablished ∧
    refusalOf (exec (.classify (aLo ++ List.replicate 16 0xFF) (tile .w32 aHi) (zeroVec .w32)) (ready .w32))
      = some .tableNotTiled ∧
    refusalOf (exec (.classify aLo aHi [0x61]) (ready .w16)) = some .badLength := by decide

/-! ### Witnesses: for each statement with hypotheses, a case that meets them all -/

/-- The block of V1. -/
def v1Block : Vec := [0x61, 0x61, 0x61, 0x62, 0, 0, 0, 0, 0, 0, 0, 0, 0, 0, 0, 0]
def v1 : Instr := .classify aLo aHi v1Block
/-- Call 2 of V3. -/
def v3 : Instr := .classifyPair aLo aHi bLo bHi (lastLane 0 0xFF) (firstLane 0x62 0x78)

theorem witness_DecodeOfEncodeIsTheOperation : v3.wellFormed .w16 = true := by decide

theorem witness_EncodeOfDecodeIsTheRequest : decode .w16 (encode v1) = .instr v1 := by decide

theorem witness_ClassifyOperandsStandAtTheirOffsets :
    (encode v1).length = 1 + 3 * LaneWidth.w16.bytes ∧ (encode v1).head? = some 0x01#8 := by decide

theorem witness_PairOperandsStandAtTheirOffsets :
    (encode v3).length = 1 + 6 * LaneWidth.w16.bytes ∧ (encode v3).head? = some 0x02#8 := by decide

/-- Each clause at a boundary: the first reserved opcode, a request one byte too long, and one byte too short. -/
theorem witness_DecodeRejectsByName : 3 ≤ (0x03#8).toNat ∧ ([0x00#8].length + 1 ≠ 1) ∧
    ((List.replicate 47 0x00#8).length + 1 ≠ 1 + 3 * LaneWidth.w16.bytes) ∧
    ((List.replicate 97 0x00#8).length + 1 ≠ 1 + 6 * LaneWidth.w16.bytes) ∧
    decode .w16 [0x03#8] = .invalid .reservedOpcode := by decide

/-- Each clause of the order of checks, on requests that pass every earlier check. -/
theorem witness_RequestsAreCheckedInOrder : 3 ≤ (0x03#8).toNat ∧
    (formatOfOpcode 0x00#8 = some .k ∧ [0x00#8].length + 1 ≠ Format.k.requestLength .w16) ∧
    (decode absent.cfg.width (0x01#8 :: v1.operands.flatten) = .instr v1 ∧ v1 ≠ .chkcap ∧ absent.gate ≠ .passed) ∧
    (decode (ready .w32).cfg.width (encode (.classify (aLo ++ List.replicate 16 0xFF) (tile .w32 aHi) (zeroVec .w32)))
        = .instr (.classify (aLo ++ List.replicate 16 0xFF) (tile .w32 aHi) (zeroVec .w32)) ∧
      (ready .w32).gate = .passed ∧
      aLo ++ List.replicate 16 0xFF
        ∈ (Instr.classify (aLo ++ List.replicate 16 0xFF) (tile .w32 aHi) (zeroVec .w32)).masks ∧
      tiled (aLo ++ List.replicate 16 0xFF) = false) ∧
    (decode (ready .w16).cfg.width (0x01#8 :: v1.operands.flatten) = .instr v1 ∧ (ready .w16).gate = .passed ∧
      ∀ m ∈ v1.masks, tiled m = true) := by decide

theorem witness_OneResponsePerRequestOfItsLength : ∃ t, exec v1 (ready .w16) = .next t := exists_next (by decide)

theorem witness_StepRunsTheDecodedOperation :
    ((ready .w16).issueNext (encode v1)).pending = [.issue (encode v1)] ∧
    decode ((ready .w16).issueNext (encode v1)).cfg.width (encode v1) = .instr v1 := by decide

theorem witness_StepRefusesWhatDoesNotDecode : ((ready .w16).issueNext [0x03]).pending = [.issue [0x03]] ∧
    decode (ready .w16).cfg.width [0x03#8] = .invalid .reservedOpcode ∧
    decode (ready .w16).cfg.width [] = .invalid .badLength := by decide

theorem witness_IdleStepChangesNothing : State.reset.pending = [] := rfl

/-- A pair step on a stream that is not open. -/
theorem witness_NoOperationFaults :
    step ((ready .w16).setPending [.pairStep 7 aLo aHi bLo bHi z16]) = .fault (.noCarry 7) := rfl

/-- Both clauses: the capability given by the backend, by the feature, and absent. -/
theorem witness_ChkcapAnswersTheCapability : (ready .w16).cfg.backend = .portable ∧
    State.reset.cfg.featurePresent = true ∧ (absent.cfg.backend = .hwSpecific ∧ absent.cfg.featurePresent = false) := by
  decide

theorem witness_ChkcapRepeatsItsStatus : ∃ t, run 1 ((ready .w16).issueNext (encode v1)) = .next t :=
  exists_next (by decide)

theorem witness_GateIsSetByChkcapAlone : (∃ t, exec .chkcap absent = .next t) ∧ (ready .w16).legal = true ∧
    (∃ t, step ((ready .w16).issueNext [0x00]) = .next t) ∧ ((ready .w16).issueNext [0x00]).legal = true ∧
    (ready .w16).gate ≠ .unchecked ∧ ((ready .w16).issueNext [0x00]).pending.head? ≠ some .resetBlock :=
  ⟨exists_next (by decide), by decide, exists_next (by decide), by decide, by decide, by decide⟩

theorem witness_MatchersNeedTheGate : v1.wellFormed State.reset.cfg.width = true ∧ v1 ≠ .chkcap ∧
    State.reset.gate = .unchecked ∧ (absent.setGate .failed).gate = .failed := by decide

theorem witness_WithoutCapabilityOnlyArchError : (absent.issueNext [0x00]).legal = true ∧
    (absent.issueNext [0x00]).cfg.backend = .hwSpecific ∧ (absent.issueNext [0x00]).cfg.featurePresent = false ∧
    ∃ t, run 1 (absent.issueNext [0x00]) = .next t :=
  ⟨by decide, by decide, by decide, exists_next (by decide)⟩

theorem witness_ArchErrorComesFromChkcapAlone : exec .chkcap absent
      = .next ((absent.setGate .failed).respond (.status .archError)) ∧
    ((absent.setGate .failed).respond (.status .archError)).responses.getLast? = some (.status .archError) := ⟨rfl, rfl⟩

theorem witness_BitwisePrimitivesActLaneByLane : aLo.length = LaneWidth.w16.bytes ∧ aHi.length = LaneWidth.w16.bytes := by
  decide

/-- The first and the last lane of a sub-lane, and the lanes between. -/
theorem witness_ShiftStaysInItsSubLane : v1Block.length = LaneWidth.w16.bytes ∧ 0 < 7 ∧ 8 * 1 + 6 < LaneWidth.w16.bytes ∧
    8 * 1 + 7 < LaneWidth.w16.bytes := by decide

theorem witness_ComparisonsGiveMatchVectors : isMatchVector [0x00, 0xFF] = true ∧ 1 < [0x00#8, 0xFF#8].length := by decide

/-- A tiled table of two groups. -/
theorem witness_LookupStaysInItsGroup : (tile .w32 aLo).length = LaneWidth.w32.bytes ∧
    (List.replicate 32 15#4).length = LaneWidth.w32.bytes ∧ tiled (tile .w32 aLo) = true := by decide

/-- The last address a vector fits at. -/
theorem witness_StagingStorePlacesTheLanes : aLo.length = LaneWidth.w16.bytes ∧
    16 + LaneWidth.w16.bytes ≤ 2 * LaneWidth.w16.bytes ∧ Memory.wf [] = true := by decide

theorem witness_StagingLoadTakesTheLanes : aLo.length = LaneWidth.w16.bytes ∧
    15 + LaneWidth.w16.bytes ≤ 2 * LaneWidth.w16.bytes ∧
    ∀ i < LaneWidth.w16.bytes, Memory.byteAt (Memory.place 15 aLo []) (15 + i) = some (lane aLo i) := by decide

/-- Both clauses: the first address a vector no longer fits at, and the last address of the buffer without a value. -/
theorem witness_StagingAccessOutsideFaults : (aLo.length = LaneWidth.w16.bytes ∧
    2 * LaneWidth.w16.bytes < 17 + LaneWidth.w16.bytes) ∧
    (31 < 2 * LaneWidth.w16.bytes ∧ Memory.byteAt [] 31 = none) := by decide

theorem witness_ClassifyAnswersTheClosedForm : (ready .w16).gate = .passed ∧ aLo.length = (ready .w16).cfg.width.bytes ∧
    aHi.length = (ready .w16).cfg.width.bytes ∧ v1Block.length = (ready .w16).cfg.width.bytes ∧ tiled aLo = true ∧
    tiled aHi = true := by decide

theorem witness_ClassifyGroupsAreIsolated : (ready .w32).gate = .passed ∧ (ready .w16).gate = .passed ∧
    (ready .w16).cfg.width = .w16 ∧ 1 < (ready .w32).cfg.width.bytes / 16 ∧
    (tile .w32 aLo).length = (ready .w32).cfg.width.bytes ∧ (tile .w32 aHi).length = (ready .w32).cfg.width.bytes ∧
    (zeroVec .w32).length = (ready .w32).cfg.width.bytes ∧ tiled (tile .w32 aLo) = true ∧ tiled (tile .w32 aHi) = true := by
  decide

/-- Both clauses: an all-zero table, and two all-ones tables. -/
theorem witness_ClassifyWithDegenerateTables : (ready .w64).gate = .passed ∧
    (zeroVec .w64).length = (ready .w64).cfg.width.bytes ∧ (onesVec .w64).length = (ready .w64).cfg.width.bytes ∧
    tiled (zeroVec .w64) = true ∧ tiled (onesVec .w64) = true := by decide

theorem witness_ClassifyPairAnswersTheClosedForm : (ready .w16).gate = .passed ∧
    (∀ v ∈ [aLo, aHi, bLo, bHi, z16, v1Block], v.length = (ready .w16).cfg.width.bytes) ∧
    (∀ m ∈ [aLo, aHi, bLo, bHi], tiled m = true) := by decide

theorem witness_ClassifyPairFillsTheStagingBuffer : ∃ t, exec v3 (ready .w16) = .next t := exists_next (by decide)

theorem witness_CarryOutIsTheFirstClassification :
    ∃ t, exec (.classifyPair aLo aHi bLo bHi z16 (lastLane 0x78 0x61)) (ready .w16) = .next t := exists_next (by decide)

/-- Two carries that agree in lane 15 and in no other. -/
theorem witness_OnlyTheLastCarryLaneMatters : (lastLane 0 0xFF).length = (ready .w16).cfg.width.bytes ∧
    (lastLane 0x12 0xFF).length = (ready .w16).cfg.width.bytes ∧
    lane (lastLane 0 0xFF) ((ready .w16).cfg.width.bytes - 1) = lane (lastLane 0x12 0xFF) ((ready .w16).cfg.width.bytes - 1) ∧
    ∃ t, exec v3 (ready .w16) = .next t := ⟨by decide, by decide, by decide, exists_next (by decide)⟩

theorem witness_PartialCarryLaneIsNoCandidate : lane (lastLane 0x12 0xFE) ((ready .w16).cfg.width.bytes - 1) ≠ 0xFF#8 ∧
    ∃ t, exec (.classifyPair aLo aHi bLo bHi (lastLane 0x12 0xFE) (firstLane 0x62 0x78)) (ready .w16) = .next t :=
  ⟨by decide, exists_next (by decide)⟩

theorem witness_NeutralCarryGivesNoHitInLaneZero : (ready .w16).gate = .passed ∧
    (∀ v ∈ [aLo, aHi, bLo, bHi, firstLane 0x62 0x78], v.length = (ready .w16).cfg.width.bytes) ∧
    (∀ m ∈ [aLo, aHi, bLo, bHi], tiled m = true) := by decide

/-- Both clauses. -/
theorem witness_StreamStartAndEnd :
    ((ready .w16).setPending [.startStream 0]).pending = .startStream 0 :: [] ∧
    (((ready .w16).setCarry 0 z16).setPending [.endStream 0]).pending = .endStream 0 :: [] := by decide

/-- An instance with stream 3 open, about to step it. -/
def pairing : State := ((ready .w16).setCarry 3 z16).setPending [.pairStep 3 aLo aHi bLo bHi v1Block]

theorem witness_PairStepThreadsTheCarry : pairing.pending = .pairStep 3 aLo aHi bLo bHi v1Block :: [] ∧
    pairing.carryOf 3 = some z16 ∧ pairing.gate = .passed ∧
    (∀ v ∈ [aLo, aHi, bLo, bHi, z16, v1Block], v.length = pairing.cfg.width.bytes) ∧
    (∀ m ∈ [aLo, aHi, bLo, bHi], tiled m = true) := by decide

/-- The two blocks of Scenario B. -/
def scenarioB : List Vec := [lastLane 0x78 0x61, firstLane 0x62 0x78]

theorem witness_StreamPairFindsExactlyThePairs : (ready .w16).gate = .passed ∧
    (∀ m ∈ [aLo, aHi, bLo, bHi], legalMask (ready .w16).cfg.width m = true) ∧
    (∀ b ∈ scenarioB, b.length = (ready .w16).cfg.width.bytes) ∧
    ((ready .w16).setPending (streamPair 0 aLo aHi bLo bHi scenarioB)).pending
      = streamPair 0 aLo aHi bLo bHi scenarioB ++ [] := by decide

/-- Scenario B as one 32-byte input, on instances of width 16 and 32. -/
def streaming (w : LaneWidth) : State := (ready w).setPending
  (streamPair 0 (tile w aLo) (tile w aHi) (tile w bLo) (tile w bHi) (blocksOf w scenarioB.flatten))

theorem witness_PairResultsDoNotDependOnTheWidth : (streaming .w16).gate = .passed ∧ (streaming .w32).gate = .passed ∧
    scenarioB.flatten.length % (streaming .w16).cfg.width.bytes = 0 ∧
    scenarioB.flatten.length % (streaming .w32).cfg.width.bytes = 0 ∧
    (streaming .w16).pending = streamPair 0 (tile .w16 aLo) (tile .w16 aHi) (tile .w16 bLo) (tile .w16 bHi)
      (blocksOf .w16 scenarioB.flatten) ∧
    (streaming .w32).pending = streamPair 0 (tile .w32 aLo) (tile .w32 aHi) (tile .w32 bLo) (tile .w32 bHi)
      (blocksOf .w32 scenarioB.flatten) :=
  ⟨rfl, rfl, by decide, by decide, rfl, rfl⟩

theorem witness_StreamSingleClassifiesEveryByte : (ready .w16).gate = .passed ∧
    legalMask (ready .w16).cfg.width aLo = true ∧ legalMask (ready .w16).cfg.width aHi = true ∧
    (∀ b ∈ scenarioB, b.length = (ready .w16).cfg.width.bytes) ∧
    ((ready .w16).setPending (streamSingle aLo aHi scenarioB)).pending = streamSingle aLo aHi scenarioB ++ [] := by decide

theorem witness_ResetInMidStreamKeepsTheCarries :
    (pairing.setPending [.resetBlock]).pending = .resetBlock :: [] := rfl

theorem witness_ConfigurationNeverChanges : ∃ t, run 2 (pairing.setPending [.resetBlock]) = .next t :=
  exists_next (by decide)

/-- Two different states of one configuration that both execute the operation. -/
theorem witness_ResponseDependsOnOperandsOnly : (ready .w16).cfg = pairing.cfg ∧ (∃ t, exec v3 (ready .w16) = .next t) ∧
    (∃ t, exec v3 pairing = .next t) := ⟨rfl, exists_next (by decide), exists_next (by decide)⟩

theorem witness_InstancesAreIndependent : (0 : Nat) ≠ 1 ∧
    stepInstance 0 [pairing.setPending [.resetBlock], absent.issueNext [0x00]]
      = .next [(pairing.setPending []).resetInstance, absent.issueNext [0x00]] ∧
    stepInstance 1 [(pairing.setPending []).resetInstance, absent.issueNext [0x00]]
      = .next [(pairing.setPending []).resetInstance, (absent.setGate .failed).respond (.status .archError)] :=
  ⟨by decide, rfl, rfl⟩

theorem witness_StepKeepsTheStateLegal : pairing.legal = true ∧ ∃ t, step pairing = .next t :=
  ⟨by decide, exists_next (by decide)⟩

end Sys2Proof.Tests
end

section
/-! PROOFS. The capability query and the gate (40_platform_capability.md R80 to R83): what each step keeps of the
configuration and of the gate, and the three obligations of this family. -/

namespace Sys2Proof.Machine

/-! ### The configuration along a run -/

/-- No host action changes the configuration, a reset included (R23). -/
theorem perform_keeps_cfg {act : HostAction} {s t : State} (h : perform act s = .next t) : t.cfg = s.cfg := by
  rcases perform_next_cases h with ⟨_, _, -, -, he⟩ | ⟨_, -, rfl⟩ |
    ⟨_, _, _, _, _, _, _, u, _, _, -, -, hu, -, rfl⟩ | ⟨_, -, rfl⟩ | ⟨-, rfl⟩
  case inl => exact (exec_keeps he).1
  case inr.inr.inl =>
    obtain ⟨_, -, he⟩ := submit_next hu
    exact (exec_keeps he).1
  all_goals rfl

theorem step_keeps_cfg {s t : State} (h : step s = .next t) : t.cfg = s.cfg := by
  rcases step_next_cases h with ⟨-, rfl⟩ | ⟨_, rest, -, ha⟩
  · rfl
  · exact perform_keeps_cfg (s := s.setPending rest) ha

theorem run_keeps_cfg {n : Nat} {s t : State} (h : run n s = .next t) : t.cfg = s.cfg :=
  run_induct (P := fun u => u.cfg = s.cfg) (fun _ _ hu hstep => (step_keeps_cfg hstep).trans hu) rfl h

/-! ### The gate after an operation, a host action and a step -/

theorem gateOfStatus_eq_ite (st : Status) : gateOfStatus st = if st = .success then .passed else .failed := by
  cases st <;> rfl

theorem exec_gate {i : Instr} {s t : State} (h : exec i s = .next t) :
    t.gate = if i = .chkcap then gateOfStatus (capabilityStatus s.cfg) else s.gate := by
  rcases exec_next_cases h with ⟨rfl, rfl⟩ | ⟨_, _, _, rfl, -, rfl⟩ | ⟨_, _, _, _, _, _, rfl, -, rfl⟩ <;> simp

/-- A gate that a `CHKCAP` on this instance has set. The last `CHKCAP` and any later one answer the same status, so
a further `CHKCAP` sets it to the value it has. -/
theorem exec_keeps_set_gate {i : Instr} {s t : State} (hset : s.gate = gateOfStatus (capabilityStatus s.cfg))
    (h : exec i s = .next t) : t.gate = s.gate := by
  rw [exec_gate h, ← hset, ite_self]

theorem submit_keeps_set_gate {request : List Byte} {s t : State}
    (hset : s.gate = gateOfStatus (capabilityStatus s.cfg)) (h : submit request s = .next t) : t.gate = s.gate := by
  obtain ⟨_, -, he⟩ := submit_next h
  exact exec_keeps_set_gate hset he

theorem perform_keeps_set_gate {act : HostAction} {s t : State}
    (hset : s.gate = gateOfStatus (capabilityStatus s.cfg)) (hreset : act ≠ .resetBlock)
    (h : perform act s = .next t) : t.gate = s.gate := by
  rcases perform_next_cases h with ⟨_, _, -, -, he⟩ | ⟨_, -, rfl⟩ |
    ⟨_, _, _, _, _, _, _, u, _, _, -, -, hu, -, rfl⟩ | ⟨_, -, rfl⟩ | ⟨hr, -⟩
  · exact exec_keeps_set_gate hset he
  · rfl
  · exact (submit_keeps_set_gate hset hu : u.gate = s.gate)
  · rfl
  · exact absurd hr hreset

theorem step_keeps_set_gate {s t : State} (hset : s.gate = gateOfStatus (capabilityStatus s.cfg))
    (hreset : s.pending.head? ≠ some .resetBlock) (h : step s = .next t) : t.gate = s.gate := by
  rcases step_next_cases h with ⟨-, rfl⟩ | ⟨a, rest, hp, ha⟩
  · rfl
  · have hne : a ≠ .resetBlock := by simpa [hp] using hreset
    exact perform_keeps_set_gate (s := s.setPending rest) hset hne ha

/-- In a legal state a gate that is set says what `CHKCAP` answers on the configuration (R82). -/
theorem gate_eq_of_legal {s : State} (hl : s.legal = true) (hg : s.gate ≠ .unchecked) :
    s.gate = gateOfStatus (capabilityStatus s.cfg) := by
  obtain ⟨hgate, -⟩ := legal_iff.1 hl
  exact (legalGate_cases.1 hgate).resolve_left hg

/-! ### Matchers behind the gate -/

/-- The gate is checked before the tiling of the masks (R157). -/
theorem matcherRefusal_of_gate_ne_passed {i : Instr} {s : State} (hw : i.wellFormed s.cfg.width = true)
    (hg : s.gate ≠ .passed) : matcherRefusal i s = some .capabilityNotEstablished := by
  simp [matcherRefusal, hw, hg]

theorem exec_of_matcherRefusal {i : Instr} {s : State} {r : Refusal} (hi : i ≠ .chkcap)
    (h : matcherRefusal i s = some r) : exec i s = .refused r := by
  cases i with
  | chkcap => exact absurd rfl hi
  | classify _ _ _ => exact execClassify_of_refusal h
  | classifyPair _ _ _ _ _ _ => exact execClassifyPair_of_refusal h

/-! ### The obligations -/

/-- Settles O14: the status is a function of the configuration, which no run changes. -/
theorem chkcapRepeatsItsStatus : Obligations.ChkcapRepeatsItsStatus := by
  intro n s t h
  have hcfg : t.cfg = s.cfg := run_keeps_cfg h
  exact ⟨capabilityStatus s.cfg, execChkcap_eq s, hcfg ▸ execChkcap_eq t⟩

/-- Settles O15: a second `CHKCAP` sets the gate to the value the first one gave it, and no other operation sets it. -/
theorem gateIsSetByChkcapAlone : Obligations.GateIsSetByChkcapAlone := by
  refine ⟨fun i s t h => ?_, fun s t hl h hg hreset => ?_⟩
  · rw [exec_gate h, gateOfStatus_eq_ite]
  · exact step_keeps_set_gate (gate_eq_of_legal hl hg) hreset h

/-- Settles O16: well-formed operands pass the check of the width, so the gate's check is the first to fail. -/
theorem matchersNeedTheGate : Obligations.MatchersNeedTheGate := by
  intro s i hw hi hg
  have hne : s.gate ≠ .passed := by rcases hg with hg | hg <;> simp [hg]
  exact exec_of_matcherRefusal hi (matcherRefusal_of_gate_ne_passed hw hne)

end Sys2Proof.Machine
end

section
/-! PROOFS. The vector primitives (41_vector_lane_primitives.md R90 to R94, R96, R97, R99, R100): the corner laws of
`vand`, the two comparisons in the spec's wording, a vector as its own lanes, and the obligations of this family. -/

namespace Sys2Proof.Machine

/-! ### The corner laws of `vand`, and the two readings of `vandnot` -/

theorem lane_vand_broadcast {w : LaneWidth} {a : Vec} (ha : a.length = w.bytes) {i : Nat} (hi : i < w.bytes)
    (b : Byte) : lane (vand a (broadcast w b)) i = lane a i &&& b := by
  rw [lane_vand (by omega) (by simpa using hi), lane_broadcast hi]

theorem vand_onesVec {w : LaneWidth} {a : Vec} (ha : a.length = w.bytes) : vand a (onesVec w) = a := by
  refine vec_ext (by simp [onesVec, ha]) fun i hi => ?_
  rw [onesVec, lane_vand_broadcast ha (by simp only [length_vand] at hi; omega)]
  exact BitVec.and_allOnes

theorem vand_zeroVec {w : LaneWidth} {a : Vec} (ha : a.length = w.bytes) : vand a (zeroVec w) = zeroVec w := by
  refine vec_ext (by simp [zeroVec, ha]) fun i hi => ?_
  have hw : i < w.bytes := by simp only [length_vand] at hi; omega
  rw [zeroVec, lane_vand_broadcast ha hw, lane_broadcast hw]
  exact BitVec.and_zero

theorem vand_self (a : Vec) : vand a a = a := by
  refine vec_ext (by simp) fun i hi => ?_
  have ha : i < a.length := by simpa using hi
  rw [lane_vand ha ha, BitVec.and_self]

/-- Whatever `ANDNOT_ORDER` is, it is one constant for all vectors and lanes (R92). -/
theorem lane_vandnot_cases :
    (∀ (a b : Vec) (i : Nat), i < a.length → i < b.length → lane (vandnot a b) i = (~~~(lane a i)) &&& lane b i) ∨
    (∀ (a b : Vec) (i : Nat), i < a.length → i < b.length → lane (vandnot a b) i = lane a i &&& (~~~(lane b i))) := by
  cases horder : Config.andnotOrder with
  | complementFirst => exact .inl fun a b i ha hb => by rw [vandnot, horder, lane_vandnotBy ha hb]
  | complementSecond => exact .inr fun a b i ha hb => by rw [vandnot, horder, lane_vandnotBy ha hb]

/-! ### The comparisons -/

theorem laneOfBool_beq (x y : Byte) : laneOfBool (x == y) = if x = y then 0xFF#8 else 0x00#8 := by
  simp [laneOfBool]

/-- A MatchVector's lanes already say whether they are all-ones (R94). -/
theorem eqOnes_of_isMatchVector {a : Vec} (h : isMatchVector a = true) : eqOnes a = a := by
  refine vec_ext (length_eqOnes a) fun i hi => ?_
  have ha : i < a.length := by simpa using hi
  rw [lane_eqOnes ha]
  rcases isMatchVector_iff.1 h i ha with hzero | hones
  · rw [hzero]; rfl
  · rw [hones]; rfl

/-! ### A vector as its own lanes -/

theorem buildVec_lane (v : Vec) : buildVec v.length (lane v) = v :=
  vec_ext (length_buildVec _ _) fun _ hi => lane_buildVec (by simpa using hi) _

/-! ### The obligations -/

/-- Settles O24: `byteAt_place` gives both what the store placed and what it left as it was. -/
theorem stagingStorePlacesTheLanes : Obligations.StagingStorePlacesTheLanes := by
  intro w address v m hv hfit
  refine ⟨Memory.place address v m, ?_, fun i hi => ?_, fun a ha => ?_, wf_place address v⟩
  · rw [vstore, store_eq, if_pos (by omega)]
  · rw [byteAt_place, if_pos (by omega), Nat.add_sub_cancel_left]
  · rw [byteAt_place, if_neg (by omega)]

/-- Settles O25: the load answers the vector built from the bytes it finds, and those are the lanes of `v`. -/
theorem stagingLoadTakesTheLanes : Obligations.StagingLoadTakesTheLanes := by
  intro w address v m hv hfit hbytes
  rw [vload, read_eq (lane v) (by omega) hbytes, ← hv, buildVec_lane]

/-- Settles O22: in a tiled table every group holds the table, so the group of the lane drops out (R98). -/
theorem lookupStaysInItsGroup : Obligations.LookupStaysInItsGroup := by
  intro w m idx hm hidx
  refine ⟨fun i hi => ?_, fun ht i hi => ?_⟩
  · rw [lane_lookup16 hi, List.getD_eq_getElem _ _ hi]
  · rw [lane_lookup16_tiled hm ht (by omega) hi, List.getD_eq_getElem _ _ hi]

/-- Settles O20, from the lanes of the two comparisons. -/
theorem comparisonsGiveMatchVectors : Obligations.ComparisonsGiveMatchVectors := by
  intro a
  refine ⟨fun i hi => ?_, fun i hi => ?_, length_eqZero a, length_eqOnes a, isMatchVector_eqZero a,
    isMatchVector_eqOnes a, eqOnes_of_isMatchVector⟩
  · rw [lane_eqZero hi, laneOfBool_beq]
  · rw [lane_eqOnes hi, laneOfBool_beq]

/-- Settles O19: the lanes of `vand` and `vor`, the corner laws, and AND-NOT by the order the model fixes once. -/
theorem bitwisePrimitivesActLaneByLane : Obligations.BitwisePrimitivesActLaneByLane := by
  refine ⟨fun w a b ha hb => ⟨fun i hi => lane_vand (by omega) (by omega), fun i hi => lane_vor (by omega) (by omega),
    vand_onesVec ha, vand_zeroVec ha, vand_self a⟩, ?_⟩
  exact lane_vandnot_cases.imp (fun h w a b ha hb i hi => h a b i (by omega) (by omega))
    (fun h w a b ha hb i hi => h a b i (by omega) (by omega))

/-- Settles O23, by the length and the lanes of `broadcast` in the model's laws. -/
theorem broadcastFillsEveryLane : Obligations.BroadcastFillsEveryLane :=
  fun w b => ⟨length_broadcast w b, fun _ hi => lane_broadcast hi b⟩

end Sys2Proof.Machine
end

section
/-! PROOFS. The single-class matcher (42_single_class_matcher.md R110 to R113): when the check before `CLASSIFY`
passes, what it then answers, and the obligation of this family. -/

namespace Sys2Proof.Machine

/-- The check of `CLASSIFY` passes exactly when widths, gate and the tiling of both masks are as they must be (R110). -/
theorem matcherRefusal_classify_eq_none {maskLow maskHigh chars : Vec} {s : State} :
    matcherRefusal (.classify maskLow maskHigh chars) s = none ↔
      (maskLow.length = s.cfg.width.bytes ∧ maskHigh.length = s.cfg.width.bytes ∧
        chars.length = s.cfg.width.bytes) ∧
      s.gate = .passed ∧ tiled maskLow = true ∧ tiled maskHigh = true := by
  rw [matcherRefusal_eq_none, classify_wellFormed_iff]
  simp [Instr.masks]

/-- `CLASSIFY` behind its check: the response of its data path is added, and nothing else changes (R111). -/
theorem exec_classify_of_ok {maskLow maskHigh chars : Vec} {s : State}
    (h : matcherRefusal (.classify maskLow maskHigh chars) s = none) :
    exec (.classify maskLow maskHigh chars) s =
      .next { s with responses :=
        s.responses ++ [.matchVector (classifyFn s.cfg.width maskLow maskHigh chars)] } :=
  execClassify_of_ok h

/-- Settles O27: R110 lets the operation pass its check, and with tiled tables each lane of the data path says whether
its byte is in the class of the two tables (R113). -/
theorem classifyAnswersTheClosedForm : Obligations.ClassifyAnswersTheClosedForm := by
  intro s maskLow maskHigh chars hgate hlow hhigh hchars tlow thigh
  have hok : matcherRefusal (.classify maskLow maskHigh chars) s = none :=
    matcherRefusal_classify_eq_none.2 ⟨⟨hlow, hhigh, hchars⟩, hgate, tlow, thigh⟩
  refine ⟨classifyFn s.cfg.width maskLow maskHigh chars, exec_classify_of_ok hok,
    length_classifyFn _ _ _ hchars, fun i hi => ?_⟩
  rw [lane_classifyFn_tiled hlow hhigh tlow thigh hchars hi, classOf, laneOfBool_beq]

end Sys2Proof.Machine
end

section
/-! PROOFS. The double-class matcher (43_double_class_matcher.md R120 to R124): when the check before `CLASSIFY_PAIR`
passes, its result lane by lane, what an answered call was, and the two obligations of this family. -/

namespace Sys2Proof.Machine

/-! ### The check and the answer -/

theorem wellFormed_iff {w : LaneWidth} {i : Instr} :
    i.wellFormed w = true ↔ ∀ v ∈ i.operands, v.length = w.bytes := by
  simp [Instr.wellFormed, hasWidth_iff]

/-- The check of `CLASSIFY_PAIR` passes exactly when widths, gate and the tiling of the four masks are as they must be
(R120). -/
theorem matcherRefusal_classifyPair_eq_none {mask1Low mask1High mask2Low mask2High carryIn chars : Vec} {s : State} :
    matcherRefusal (.classifyPair mask1Low mask1High mask2Low mask2High carryIn chars) s = none ↔
      (∀ v ∈ [mask1Low, mask1High, mask2Low, mask2High, carryIn, chars], v.length = s.cfg.width.bytes) ∧
      s.gate = .passed ∧ ∀ m ∈ [mask1Low, mask1High, mask2Low, mask2High], tiled m = true := by
  rw [matcherRefusal_eq_none, wellFormed_iff]
  rfl

/-- A block and first tables that pass the check of `CLASSIFY_PAIR` pass that of `CLASSIFY` (R124). -/
theorem matcherRefusal_classify_of_classifyPair {mask1Low mask1High mask2Low mask2High carryIn chars : Vec} {s : State}
    (h : matcherRefusal (.classifyPair mask1Low mask1High mask2Low mask2High carryIn chars) s = none) :
    matcherRefusal (.classify mask1Low mask1High chars) s = none := by
  obtain ⟨hlen, hgate, htiled⟩ := matcherRefusal_classifyPair_eq_none.1 h
  exact matcherRefusal_classify_eq_none.2 ⟨⟨hlen _ (by simp), hlen _ (by simp), hlen _ (by simp)⟩, hgate,
    htiled _ (by simp), htiled _ (by simp)⟩

/-- The result of `CLASSIFY_PAIR` without its check and its staging buffer; `exec_classifyPair_of_ok` ties it to the
operation. -/
def pairResult (w : LaneWidth) (mask1Low mask1High mask2Low mask2High carryIn chars : Vec) : Vec :=
  pairLanes (shiftedLanes w carryIn (classifyFn w mask1Low mask1High chars)) (classifyFn w mask2Low mask2High chars)

/-- `CLASSIFY_PAIR` behind its check: the staging buffer gets `carryIn` and `carryOut`, the response is added, and
nothing else changes (R121, R123). -/
theorem exec_classifyPair_of_ok {mask1Low mask1High mask2Low mask2High carryIn chars : Vec} {s : State}
    (h : matcherRefusal (.classifyPair mask1Low mask1High mask2Low mask2High carryIn chars) s = none) :
    exec (.classifyPair mask1Low mask1High mask2Low mask2High carryIn chars) s =
      .next { s with
        stg := Memory.place s.cfg.width.bytes (classifyFn s.cfg.width mask1Low mask1High chars)
          (Memory.place 0 carryIn s.stg)
        responses := s.responses ++
          [.pair (pairResult s.cfg.width mask1Low mask1High mask2Low mask2High carryIn chars)
            (classifyFn s.cfg.width mask1Low mask1High chars)] } :=
  execClassifyPair_of_ok h

/-- An answered `CLASSIFY_PAIR` passed its check, and its response is the pair of its two data paths. -/
theorem exec_classifyPair_next {mask1Low mask1High mask2Low mask2High carryIn chars : Vec} {s t : State}
    (h : exec (.classifyPair mask1Low mask1High mask2Low mask2High carryIn chars) s = .next t) :
    matcherRefusal (.classifyPair mask1Low mask1High mask2Low mask2High carryIn chars) s = none ∧
      t.responses = s.responses ++
        [.pair (pairResult s.cfg.width mask1Low mask1High mask2Low mask2High carryIn chars)
          (classifyFn s.cfg.width mask1Low mask1High chars)] := by
  cases hr : matcherRefusal (.classifyPair mask1Low mask1High mask2Low mask2High carryIn chars) s with
  | some r => rw [exec_of_matcherRefusal (by simp) hr] at h; cases h
  | none => rw [exec_classifyPair_of_ok hr] at h; cases h; exact ⟨rfl, rfl⟩

/-! ### The lanes of the result -/

/-- A candidate lane counts only when it is all-ones, whatever its other bits (R127). -/
theorem and_hitLane_beq_ones (x : Byte) (q : Bool) :
    ((x &&& hitLane q) == 0xFF#8) = (decide (x = 0xFF#8) && q) := by
  cases q with
  | false => simp [hitLane]
  | true => rw [hitLane, if_pos rfl, show x &&& 0xFF#8 = x from BitVec.and_allOnes, Bool.and_true]; rfl

theorem decide_hitLane_eq_ones (p : Bool) : decide (hitLane p = 0xFF#8) = p := by cases p <;> rfl

/-- With tiled tables a lane of the data path is the hit of its byte in the class of the masks (R113). -/
theorem lane_classifyFn_inClass {w : LaneWidth} {maskLow maskHigh chars : Vec} (hl : maskLow.length = w.bytes)
    (hh : maskHigh.length = w.bytes) (tl : tiled maskLow = true) (th : tiled maskHigh = true)
    (hc : chars.length = w.bytes) {i : Nat} (hi : i < w.bytes) :
    lane (classifyFn w maskLow maskHigh chars) i = hitLane (inClass maskLow maskHigh (lane chars i)) :=
  lane_classifyFn_tiled hl hh tl th hc hi

@[simp] theorem length_pairResult {w : LaneWidth} (mask1Low mask1High mask2Low mask2High carryIn : Vec) {chars : Vec}
    (hc : chars.length = w.bytes) :
    (pairResult w mask1Low mask1High mask2Low mask2High carryIn chars).length = w.bytes := by
  simp [pairResult, hc]

/-- A lane of the result is the hit of its byte in the second class, where the shifted first candidates are all-ones. -/
theorem lane_pairResult {w : LaneWidth} {mask2Low mask2High chars : Vec} (mask1Low mask1High carryIn : Vec)
    (hl : mask2Low.length = w.bytes) (hh : mask2High.length = w.bytes) (tl : tiled mask2Low = true)
    (th : tiled mask2High = true) (hc : chars.length = w.bytes) {i : Nat} (hi : i < w.bytes) :
    lane (pairResult w mask1Low mask1High mask2Low mask2High carryIn chars) i =
      hitLane (decide (lane (shiftedLanes w carryIn (classifyFn w mask1Low mask1High chars)) i = 0xFF#8) &&
        inClass mask2Low mask2High (lane chars i)) := by
  rw [pairResult, lane_pairLanes (by simpa using hi) (by simpa [hc] using hi),
    lane_classifyFn_inClass hl hh tl th hc hi, and_hitLane_beq_ones]
  rfl

/-! ### The obligations -/

/-- Settles O31: the shifted candidates are the last carry lane in lane 0 and the first classification's lane `i - 1`
in lane `i`. -/
theorem classifyPairAnswersTheClosedForm : Obligations.ClassifyPairAnswersTheClosedForm := by
  intro s mask1Low mask1High mask2Low mask2High carryIn chars hgate hlen htiled
  have hok := matcherRefusal_classifyPair_eq_none.2 ⟨hlen, hgate, htiled⟩
  have hchars : chars.length = s.cfg.width.bytes := hlen _ (by simp)
  have hcarryOut : ∀ i < s.cfg.width.bytes, lane (classifyFn s.cfg.width mask1Low mask1High chars) i =
      hitLane (inClass mask1Low mask1High (lane chars i)) := fun i hi =>
    lane_classifyFn_inClass (hlen _ (by simp)) (hlen _ (by simp)) (htiled _ (by simp)) (htiled _ (by simp)) hchars hi
  have hresult {i : Nat} (hi : i < s.cfg.width.bytes) :=
    lane_pairResult mask1Low mask1High carryIn (hlen mask2Low (by simp)) (hlen mask2High (by simp))
      (htiled _ (by simp)) (htiled _ (by simp)) hchars hi
  refine ⟨_, _, _, exec_classifyPair_of_ok hok, length_pairResult _ _ _ _ _ hchars, length_classifyFn _ _ _ hchars,
    ?_, fun i hpos hi => ?_, hcarryOut⟩
  · rw [hresult (bytes_pos _), lane_shiftedLanes (bytes_pos _), if_pos rfl]
  · rw [hresult hi, lane_shiftedLanes hi, if_neg (by omega), hcarryOut (i - 1) (by omega), decide_hitLane_eq_ones]

/-- Settles O33: `carryOut` is the data path of `CLASSIFY` with the first tables, whose check passes with that of the
pair. -/
theorem carryOutIsTheFirstClassification : Obligations.CarryOutIsTheFirstClassification := by
  intro s t mask1Low mask1High mask2Low mask2High carryIn chars h
  obtain ⟨hok, hresponses⟩ := exec_classifyPair_next h
  exact ⟨_, _, hresponses, isMatchVector_classifyFn _ _ _ _,
    exec_classify_of_ok (matcherRefusal_classify_of_classifyPair hok)⟩

end Sys2Proof.Machine
end

section
/-! PROOFS. Requests the host sends for a well-formed operation (30_encoding.md R61 to R71): the block decodes them to
that operation and executes it. -/

namespace Sys2Proof

/-- The payload of a well-formed operation's request is cut back into its operands (R63, R65, R66). -/
theorem assemble_operands {w : LaneWidth} {i : Instr} (h : i.wellFormed w = true) :
    assemble w i.operands.flatten i.format = i := by
  have hlen := Machine.wellFormed_iff.1 h
  cases i with
  | chkcap => rfl
  | classify _ _ _ =>
    have hoperand {k : Nat} (hk : k < 3) := payloadOperand_flatten (k := k) hlen hk
    simp only [assemble, Instr.format, hoperand, Nat.reduceLT]
    rfl
  | classifyPair _ _ _ _ _ _ =>
    have hoperand {k : Nat} (hk : k < 6) := payloadOperand_flatten (k := k) hlen hk
    simp only [assemble, Instr.format, hoperand, Nat.reduceLT]
    rfl

theorem decode_encode {w : LaneWidth} {i : Instr} (h : i.wellFormed w = true) : decode w (encode i) = .instr i := by
  have hlen : i.operands.flatten.length + 1 = i.format.requestLength w := by
    rw [length_flatten_operands h, Format.requestLength, Nat.add_comm]
  rw [encode, decode_cons, formatOfOpcode_opcodeOf]
  simp only [hlen, if_true, assemble_operands h]

namespace Machine

theorem submit_encode {i : Instr} {s : State} (h : i.wellFormed s.cfg.width = true) :
    submit (encode i) s = exec i s := by
  simp only [submit, decode_encode h]

/-- A step that issues the request of a well-formed operation executes it (R13). -/
theorem step_issue_encode {i : Instr} {s : State} {rest : List HostAction} (hp : s.pending = .issue (encode i) :: rest)
    (hw : i.wellFormed s.cfg.width = true) : step s = exec i (s.setPending rest) := by
  rw [step_cons hp]
  exact submit_encode (s := s.setPending rest) hw

end Machine

end Sys2Proof
end

section
/-! PROOFS. The stream protocol (44_stream_protocol.md R135 to R145): what one pair step does, what a run of
`STREAM_PAIR` and of `STREAM_SINGLE` delivers, and where a stream position lies in the blocks. -/

namespace Sys2Proof.Machine

/-! ### Runs, masks and stream positions -/

theorem run_add {n : Nat} (m : Nat) {s t : State} (h : run n s = .next t) : run (n + m) s = run m t := by
  induction n generalizing s with
  | zero => rw [run_zero] at h; cases h; rw [Nat.zero_add]
  | succ n ih =>
    obtain ⟨u, hstep, hrun⟩ := run_succ_next h
    rw [Nat.succ_add_eq_add_succ, Nat.add_succ, run_succ_of_next hstep, ih hrun]

theorem legalMask_iff {w : LaneWidth} {m : Vec} : legalMask w m = true ↔ m.length = w.bytes ∧ tiled m = true := by
  rw [legalMask, Bool.and_eq_true, hasWidth_iff]

/-- Stream position `k*S + i` is lane `i` of block `k` (R135). -/
theorem lane_flatten_blocks {w : LaneWidth} {blocks : List Vec} (hb : ∀ b ∈ blocks, b.length = w.bytes) {k i : Nat}
    (hk : k < blocks.length) (hi : i < w.bytes) : lane blocks.flatten (k * w.bytes + i) = lane blocks[k] i := by
  rw [← payloadOperand_flatten hb hk, lane_payloadOperand _ _ hi, lane]

theorem lane_neutralCarry {w : LaneWidth} {i : Nat} (hi : i < w.bytes) : lane (neutralCarry w) i = 0x00#8 :=
  lane_broadcast hi _

@[simp] theorem length_neutralCarry (w : LaneWidth) : (neutralCarry w).length = w.bytes := length_broadcast w _

/-! ### The neutral carry -/

/-- Settles O36: the last lane of the neutral carry is not all-ones, so lane 0 of the closed form (R121) is no hit. -/
theorem neutralCarryGivesNoHitInLaneZero : Obligations.NeutralCarryGivesNoHitInLaneZero := by
  intro s mask1Low mask1High mask2Low mask2High chars hgate hlen htiled
  have hlast : lane (neutralCarry s.cfg.width) (s.cfg.width.bytes - 1) = 0x00#8 :=
    lane_neutralCarry (Nat.sub_one_lt (bytes_pos _).ne')
  have hlen' : ∀ v ∈ [mask1Low, mask1High, mask2Low, mask2High, neutralCarry s.cfg.width, chars],
      v.length = s.cfg.width.bytes := by simpa using hlen
  obtain ⟨result, carryOut, stg, hexec, -, -, hzero, -, -⟩ :=
    classifyPairAnswersTheClosedForm s _ _ _ _ (neutralCarry s.cfg.width) chars hgate hlen' htiled
  rw [hlast] at hzero
  exact ⟨_, result, carryOut, hexec, rfl, hzero⟩

/-! ### STREAM_SINGLE -/

/-- A step that issues a `CLASSIFY` request adds its response, and nothing else changes but what is pending (R145). -/
theorem step_issue_classify {maskLow maskHigh chars : Vec} {s : State} {rest : List HostAction}
    (hp : s.pending = .issue (encode (.classify maskLow maskHigh chars)) :: rest)
    (hok : matcherRefusal (.classify maskLow maskHigh chars) s = none) :
    step s = .next ((s.setPending rest).respond (.matchVector (classifyFn s.cfg.width maskLow maskHigh chars))) := by
  obtain ⟨hw, -, -⟩ := matcherRefusal_eq_none.1 hok
  exact (step_issue_encode hp hw).trans (execClassify_of_ok (s := s.setPending rest) hok)

/-- `STREAM_SINGLE` adds one classification per block; no carry, no staging byte and no gate changes (R145). -/
theorem run_streamSingle {maskLow maskHigh : Vec} {blocks : List Vec} {rest : List HostAction} {s : State}
    (hgate : s.gate = .passed) (hlow : legalMask s.cfg.width maskLow = true)
    (hhigh : legalMask s.cfg.width maskHigh = true) (hb : ∀ b ∈ blocks, b.length = s.cfg.width.bytes)
    (hp : s.pending = streamSingle maskLow maskHigh blocks ++ rest) :
    run blocks.length s = .next { s with
      pending := rest
      responses := s.responses ++ blocks.map fun b => .matchVector (classifyFn s.cfg.width maskLow maskHigh b) } := by
  induction blocks generalizing s with
  | nil =>
    have hrest : s.pending = rest := hp
    simp [run_zero, ← hrest]
  | cons b blocks ih =>
    obtain ⟨hblock, hblocks⟩ := List.forall_mem_cons.1 hb
    obtain ⟨hlowLen, hlowTiled⟩ := legalMask_iff.1 hlow
    obtain ⟨hhighLen, hhighTiled⟩ := legalMask_iff.1 hhigh
    have hstep := step_issue_classify hp
      (matcherRefusal_classify_eq_none.2 ⟨⟨hlowLen, hhighLen, hblock⟩, hgate, hlowTiled, hhighTiled⟩)
    have hrun := ih (s := (s.setPending (streamSingle maskLow maskHigh blocks ++ rest)).respond
      (.matchVector (classifyFn s.cfg.width maskLow maskHigh b))) hgate hlow hhigh hblocks rfl
    rw [List.length_cons, (run_succ_of_next hstep).trans hrun]
    simp

/-- Settles O41: the run answers one classification per block, each lane of which is the hit of its byte (R113). -/
theorem streamSingleClassifiesEveryByte : Obligations.StreamSingleClassifiesEveryByte := by
  intro s maskLow maskHigh blocks rest hgate hlow hhigh hb hp
  refine ⟨_, run_streamSingle hgate hlow hhigh hb hp, List.length_map _, fun k hk => ?_⟩
  have hblock : blocks[k].length = s.cfg.width.bytes := hb _ (List.getElem_mem hk)
  obtain ⟨hlowLen, hlowTiled⟩ := legalMask_iff.1 hlow
  obtain ⟨hhighLen, hhighTiled⟩ := legalMask_iff.1 hhigh
  exact ⟨classifyFn s.cfg.width maskLow maskHigh blocks[k], by simp [hk], length_classifyFn _ _ _ hblock,
    fun i hi => lane_classifyFn_inClass hlowLen hhighLen hlowTiled hhighTiled hblock hi⟩

/-! ### One pair step -/

/-- What the actions of one stream leave unchanged: the configuration, the gate and every other stream's carry. -/
structure StreamFrame (stream : Nat) (s t : State) : Prop where
  cfg : t.cfg = s.cfg
  gate : t.gate = s.gate
  carryOf : ∀ other, other ≠ stream → t.carryOf other = s.carryOf other

theorem StreamFrame.trans {stream : Nat} {s t u : State} (hst : StreamFrame stream s t) (htu : StreamFrame stream t u) :
    StreamFrame stream s u :=
  ⟨htu.cfg.trans hst.cfg, htu.gate.trans hst.gate, fun k hk => (htu.carryOf k hk).trans (hst.carryOf k hk)⟩

/-- A pair step executes `CLASSIFY_PAIR` with the stream's carry and keeps the answered carryOut (R137). -/
theorem performPairStep_of_ok {stream : Nat} {mask1Low mask1High mask2Low mask2High carry block : Vec} {s : State}
    (hcarry : s.carryOf stream = some carry)
    (hok : matcherRefusal (.classifyPair mask1Low mask1High mask2Low mask2High carry block) s = none) :
    ∃ u, exec (.classifyPair mask1Low mask1High mask2Low mask2High carry block) s = .next u ∧
      performPairStep stream mask1Low mask1High mask2Low mask2High block s =
        .next (u.setCarry stream (classifyFn s.cfg.width mask1Low mask1High block)) := by
  obtain ⟨hw, -, -⟩ := matcherRefusal_eq_none.1 hok
  refine ⟨_, exec_classifyPair_of_ok hok, ?_⟩
  simp only [performPairStep, hcarry, submit_encode hw, exec_classifyPair_of_ok hok, newestCarryOut,
    List.getLast?_concat]

/-- What a pair step of an open stream does: its response, its new carry, and what it leaves unchanged (R137, R144). -/
theorem step_pairStep {stream : Nat} {mask1Low mask1High mask2Low mask2High carry block : Vec} {s : State}
    {rest : List HostAction} (hp : s.pending = .pairStep stream mask1Low mask1High mask2Low mask2High block :: rest)
    (hcarry : s.carryOf stream = some carry)
    (hok : matcherRefusal (.classifyPair mask1Low mask1High mask2Low mask2High carry block) s = none) :
    ∃ t, step s = .next t ∧ StreamFrame stream s t ∧ t.pending = rest ∧
      t.carryOf stream = some (classifyFn s.cfg.width mask1Low mask1High block) ∧
      t.responses = s.responses ++
        [.pair (pairResult s.cfg.width mask1Low mask1High mask2Low mask2High carry block)
          (classifyFn s.cfg.width mask1Low mask1High block)] := by
  obtain ⟨u, hexec, hperform⟩ := performPairStep_of_ok (s := s.setPending rest) hcarry hok
  obtain ⟨hcfg, hcarries, hpending⟩ := exec_keeps hexec
  obtain ⟨-, hresponses⟩ := exec_classifyPair_next hexec
  have hgate : u.gate = s.gate := exec_gate hexec
  refine ⟨_, (step_cons hp).trans hperform, ⟨hcfg, hgate, fun other hne => ?_⟩, hpending,
    carryOf_setCarry_self _ _ _, hresponses⟩
  rw [carryOf_setCarry_ne _ hne, State.carryOf, hcarries]
  rfl

/-! ### Stream start and stream end -/

/-- Stream start opens the stream with the neutral carry (R137). -/
theorem step_startStream {stream : Nat} {s : State} {rest : List HostAction}
    (hp : s.pending = .startStream stream :: rest) :
    ∃ t, step s = .next t ∧ StreamFrame stream s t ∧ t.pending = rest ∧
      t.carryOf stream = some (neutralCarry s.cfg.width) ∧ t.responses = s.responses :=
  ⟨_, step_cons hp, ⟨rfl, rfl, fun _ hne => carryOf_setCarry_ne _ hne _⟩, rfl, carryOf_setCarry_self _ _ _, rfl⟩

/-- Stream end discards the stream's carry (R137). -/
theorem step_endStream {stream : Nat} {s : State} {rest : List HostAction}
    (hp : s.pending = .endStream stream :: rest) :
    ∃ t, step s = .next t ∧ StreamFrame stream s t ∧ t.pending = rest ∧ t.carryOf stream = none ∧
      t.responses = s.responses :=
  ⟨_, step_cons hp, ⟨rfl, rfl, fun _ hne => carryOf_dropCarry_ne _ hne⟩, rfl, carryOf_dropCarry_self _ _, rfl⟩

/-! ### STREAM_PAIR -/

section PairTables

variable {mask1Low mask1High mask2Low mask2High : Vec}

/-- The four tables, a carry and a block as the host owes them pass the check of `CLASSIFY_PAIR` (R120, R139). -/
theorem matcherRefusal_classifyPair_of_legal {carry block : Vec} {s : State} (hgate : s.gate = .passed)
    (hmasks : ∀ m ∈ [mask1Low, mask1High, mask2Low, mask2High], legalMask s.cfg.width m = true)
    (hcarry : carry.length = s.cfg.width.bytes) (hblock : block.length = s.cfg.width.bytes) :
    matcherRefusal (.classifyPair mask1Low mask1High mask2Low mask2High carry block) s = none := by
  have hlen : ∀ m ∈ [mask1Low, mask1High, mask2Low, mask2High], m.length = s.cfg.width.bytes := fun m hm =>
    (legalMask_iff.1 (hmasks m hm)).1
  refine matcherRefusal_classifyPair_eq_none.2 ⟨?_, hgate, fun m hm => (legalMask_iff.1 (hmasks m hm)).2⟩
  simpa [hcarry, hblock] using hlen

/-- The carries a stream sends with its blocks, and after them the one left over: the initial carry, then the first
classification of each block (R137). -/
def streamCarries (w : LaneWidth) (mask1Low mask1High carry : Vec) (blocks : List Vec) : List Vec :=
  carry :: blocks.map (classifyFn w mask1Low mask1High)

/-- The responses to a stream's pair steps; `run_pairSteps` ties them to the model. -/
def streamResponses (w : LaneWidth) (mask1Low mask1High mask2Low mask2High carry : Vec) (blocks : List Vec) :
    List Response :=
  List.zipWith
    (fun c b => .pair (pairResult w mask1Low mask1High mask2Low mask2High c b) (classifyFn w mask1Low mask1High b))
    (streamCarries w mask1Low mask1High carry blocks) blocks

theorem streamResponses_cons (w : LaneWidth) (mask1Low mask1High mask2Low mask2High carry b : Vec)
    (blocks : List Vec) : streamResponses w mask1Low mask1High mask2Low mask2High carry (b :: blocks) =
      .pair (pairResult w mask1Low mask1High mask2Low mask2High carry b) (classifyFn w mask1Low mask1High b) ::
        streamResponses w mask1Low mask1High mask2Low mask2High (classifyFn w mask1Low mask1High b) blocks := rfl

@[simp] theorem length_streamCarries (w : LaneWidth) (mask1Low mask1High carry : Vec) (blocks : List Vec) :
    (streamCarries w mask1Low mask1High carry blocks).length = blocks.length + 1 := by
  simp [streamCarries]

@[simp] theorem length_streamResponses (w : LaneWidth) (mask1Low mask1High mask2Low mask2High carry : Vec)
    (blocks : List Vec) :
    (streamResponses w mask1Low mask1High mask2Low mask2High carry blocks).length = blocks.length := by
  simp [streamResponses]

theorem getElem?_streamResponses (w : LaneWidth) (mask1Low mask1High mask2Low mask2High carry : Vec)
    {blocks : List Vec} {k : Nat} (hk : k < blocks.length) :
    (streamResponses w mask1Low mask1High mask2Low mask2High carry blocks)[k]? =
      some (.pair
        (pairResult w mask1Low mask1High mask2Low mask2High
          ((streamCarries w mask1Low mask1High carry blocks)[k]'(by rw [length_streamCarries]; omega)) blocks[k])
        (classifyFn w mask1Low mask1High blocks[k])) := by
  rw [List.getElem?_eq_getElem (by simpa using hk)]
  simp [streamResponses]

/-- The pair steps of an open stream run through, each block with the carry the block before it left. -/
theorem run_pairSteps {stream : Nat} {carry : Vec} {blocks : List Vec} {rest : List HostAction} {s : State}
    (hgate : s.gate = .passed)
    (hmasks : ∀ m ∈ [mask1Low, mask1High, mask2Low, mask2High], legalMask s.cfg.width m = true)
    (hb : ∀ b ∈ blocks, b.length = s.cfg.width.bytes) (hcarry : s.carryOf stream = some carry)
    (hlen : carry.length = s.cfg.width.bytes)
    (hp : s.pending = blocks.map (.pairStep stream mask1Low mask1High mask2Low mask2High ·) ++ rest) :
    ∃ t, run blocks.length s = .next t ∧ StreamFrame stream s t ∧ t.pending = rest ∧
      t.responses = s.responses ++ streamResponses s.cfg.width mask1Low mask1High mask2Low mask2High carry blocks := by
  induction blocks generalizing s carry with
  | nil => exact ⟨s, run_zero s, ⟨rfl, rfl, fun _ _ => rfl⟩, hp, (List.append_nil _).symm⟩
  | cons b blocks ih =>
    obtain ⟨hblock, hblocks⟩ := List.forall_mem_cons.1 hb
    have hok := matcherRefusal_classifyPair_of_legal hgate hmasks hlen hblock
    obtain ⟨u, hstep, hframe, hpending, hcarryOut, hresponse⟩ := step_pairStep hp hcarry hok
    obtain ⟨t, hrun, hframe', hrest, hresponses⟩ := ih (s := u) (hframe.gate.trans hgate)
      (by rwa [hframe.cfg]) (by rwa [hframe.cfg]) hcarryOut (by rw [hframe.cfg, length_classifyFn _ _ _ hblock])
      hpending
    refine ⟨t, (run_succ_of_next hstep).trans hrun, hframe.trans hframe', hrest, ?_⟩
    rw [hresponses, hresponse, hframe.cfg, streamResponses_cons, List.append_assoc, List.singleton_append]

/-- `STREAM_PAIR` runs through: stream start gives the first block the neutral carry, stream end discards the last
carry (R137, R138). -/
theorem run_streamPair {stream : Nat} {blocks : List Vec} {rest : List HostAction} {s : State}
    (hgate : s.gate = .passed)
    (hmasks : ∀ m ∈ [mask1Low, mask1High, mask2Low, mask2High], legalMask s.cfg.width m = true)
    (hb : ∀ b ∈ blocks, b.length = s.cfg.width.bytes)
    (hp : s.pending = streamPair stream mask1Low mask1High mask2Low mask2High blocks ++ rest) :
    ∃ t, run (blocks.length + 2) s = .next t ∧ StreamFrame stream s t ∧ t.pending = rest ∧
      t.carryOf stream = none ∧
      t.responses = s.responses ++ streamResponses s.cfg.width mask1Low mask1High mask2Low mask2High
        (neutralCarry s.cfg.width) blocks := by
  rw [streamPair, List.cons_append, List.append_assoc] at hp
  obtain ⟨t0, hstart, hframe0, hp0, hcarry, hresponses0⟩ := step_startStream hp
  obtain ⟨t1, hrun, hframe1, hp1, hresponses1⟩ := run_pairSteps (hframe0.gate.trans hgate) (by rwa [hframe0.cfg])
    (by rwa [hframe0.cfg]) hcarry (by rw [hframe0.cfg, length_neutralCarry]) hp0
  obtain ⟨t2, hend, hframe2, hp2, hclosed, hresponses2⟩ := step_endStream hp1
  refine ⟨t2, ?_, (hframe0.trans hframe1).trans hframe2, hp2, hclosed, ?_⟩
  · rw [run_succ_of_next hstart, run_add 1 hrun, run_succ_of_next hend, run_zero]
  · rw [hresponses2, hresponses1, hresponses0, hframe0.cfg]

/-! ### The pairs of a stream -/

/-- The invariant of the carry: before stream position `k*S + i` stands a candidate exactly if there is a byte before
it and that byte is in the first class, whether it lies in the same block or was carried over (R140, R143). -/
theorem candidate_before_position {w : LaneWidth} {blocks : List Vec} (hlow : legalMask w mask1Low = true)
    (hhigh : legalMask w mask1High = true) (hb : ∀ b ∈ blocks, b.length = w.bytes) {k i : Nat}
    (hk : k < blocks.length) (hi : i < w.bytes) :
    decide (lane (shiftedLanes w
        ((streamCarries w mask1Low mask1High (neutralCarry w) blocks)[k]'(by rw [length_streamCarries]; omega))
        (classifyFn w mask1Low mask1High blocks[k])) i = 0xFF#8) =
      (decide (1 ≤ k * w.bytes + i) && inClass mask1Low mask1High (lane blocks.flatten (k * w.bytes + i - 1))) := by
  have hfirst {j : Nat} (hj : j < blocks.length) {l : Nat} (hl : l < w.bytes) :
      lane (classifyFn w mask1Low mask1High blocks[j]) l =
        hitLane (inClass mask1Low mask1High (lane blocks.flatten (j * w.bytes + l))) := by
    obtain ⟨hlowLen, hlowTiled⟩ := legalMask_iff.1 hlow
    obtain ⟨hhighLen, hhighTiled⟩ := legalMask_iff.1 hhigh
    rw [lane_flatten_blocks hb hj hl,
      lane_classifyFn_inClass hlowLen hhighLen hlowTiled hhighTiled (hb _ (List.getElem_mem hj)) hl]
  have hpos := bytes_pos w
  rw [lane_shiftedLanes hi]
  by_cases hzero : i = 0
  · subst hzero
    rw [if_pos rfl]
    cases k with
    | zero => simp [streamCarries, lane_neutralCarry (w := w) (i := w.bytes - 1) (by omega)]
    | succ j =>
      have hposition : (j + 1) * w.bytes + 0 = j * w.bytes + (w.bytes - 1) + 1 := by rw [Nat.succ_mul]; omega
      simp only [streamCarries, List.getElem_cons_succ, List.getElem_map]
      rw [hfirst (by omega) (by omega), decide_hitLane_eq_ones, hposition]
      simp
  · have hposition : k * w.bytes + i = k * w.bytes + (i - 1) + 1 := by omega
    rw [if_neg hzero, hfirst hk (by omega), decide_hitLane_eq_ones, hposition]
    simp

end PairTables

/-- Settles O39: by induction on the blocks the run delivers `streamResponses`, and the carry between two blocks makes
the candidate before each position the byte before it in the stream. -/
theorem streamPairFindsExactlyThePairs : Obligations.StreamPairFindsExactlyThePairs := by
  intro s stream mask1Low mask1High mask2Low mask2High blocks rest hgate hmasks hb hp
  obtain ⟨t, hrun, hframe, hpending, hclosed, hresponses⟩ := run_streamPair hgate hmasks hb hp
  refine ⟨t, _, hrun, hresponses, length_streamResponses _ _ _ _ _ _ _, hframe.cfg, hframe.gate.trans hgate, hpending,
    hclosed, hframe.carryOf, fun k hk => ?_⟩
  have hblock : blocks[k].length = s.cfg.width.bytes := hb _ (List.getElem_mem hk)
  obtain ⟨hlow1, htiledLow1⟩ := legalMask_iff.1 (hmasks mask1Low (by simp))
  obtain ⟨hhigh1, htiledHigh1⟩ := legalMask_iff.1 (hmasks mask1High (by simp))
  obtain ⟨hlow2, htiledLow2⟩ := legalMask_iff.1 (hmasks mask2Low (by simp))
  obtain ⟨hhigh2, htiledHigh2⟩ := legalMask_iff.1 (hmasks mask2High (by simp))
  refine ⟨_, _, getElem?_streamResponses _ _ _ _ _ _ hk, length_pairResult _ _ _ _ _ hblock,
    length_classifyFn _ _ _ hblock, fun i hi => ⟨?_, ?_⟩⟩
  · rw [lane_pairResult _ _ _ hlow2 hhigh2 htiledLow2 htiledHigh2 hblock hi, lane_flatten_blocks hb hk hi,
      candidate_before_position (hmasks mask1Low (by simp)) (hmasks mask1High (by simp)) hb hk hi]
  · rw [lane_classifyFn_inClass hlow1 hhigh1 htiledLow1 htiledHigh1 hblock hi, lane_flatten_blocks hb hk hi]

end Sys2Proof.Machine
end

section
/-! PROOFS. The checks on a request and their order (60_exceptions.md R157): when a request does not decode, that a
decoded operation has operands of the instance's width, what is left to check then, and the obligation of this
family. -/

namespace Sys2Proof

/-! ### Decoding a non-empty request -/

theorem decode_of_reserved {w : LaneWidth} {opcode : Byte} {payload : List Byte} (h : 3 ≤ opcode.toNat) :
    decode w (opcode :: payload) = .invalid .reservedOpcode := by
  rw [decode_cons, formatOfOpcode_eq_none.2 h]

theorem decode_of_length_ne {w : LaneWidth} {opcode : Byte} {payload : List Byte} {f : Format}
    (hf : formatOfOpcode opcode = some f) (hl : payload.length + 1 ≠ f.requestLength w) :
    decode w (opcode :: payload) = .invalid .badLength := by
  rw [decode_cons, hf]
  exact if_neg hl

/-- The operands cut from a payload of the format's length have the instance's width (R63). -/
theorem assemble_wellFormed {w : LaneWidth} {payload : List Byte} {f : Format}
    (hl : payload.length = f.operandCount * w.bytes) : (assemble w payload f).wellFormed w = true := by
  have hoperand {k : Nat} (hk : k < f.operandCount) := length_payloadOperand hl hk
  cases f with
  | k => rfl
  | v3 => exact classify_wellFormed_iff.2 ⟨hoperand (by decide), hoperand (by decide), hoperand (by decide)⟩
  | v6 =>
    exact classifyPair_wellFormed_iff.2 ⟨hoperand (by decide), hoperand (by decide), hoperand (by decide),
      hoperand (by decide), hoperand (by decide), hoperand (by decide)⟩

/-- A request that decodes has the length of its format, so a matcher's check of its operands' widths cannot
fail behind the decoder. -/
theorem wellFormed_of_decode {w : LaneWidth} {request : List Byte} {i : Instr} (h : decode w request = .instr i) :
    i.wellFormed w = true := by
  obtain ⟨_, _, -, hl, rfl⟩ := decode_instr_cases h
  exact assemble_wellFormed hl

namespace Machine

/-! ### A request behind the decoder -/

theorem submit_of_invalid {request : List Byte} {s : State} {e : InvalidRequest}
    (h : decode s.cfg.width request = .invalid e) : submit request s = .refused (refusalOfInvalid e) := by
  simp only [submit, h]

theorem submit_of_instr {request : List Byte} {s : State} {i : Instr} (h : decode s.cfg.width request = .instr i) :
    submit request s = exec i s := by
  simp only [submit, h]

/-- The tiling of the masks is the last check (R157). -/
theorem matcherRefusal_of_not_tiled {i : Instr} {s : State} {m : Vec} (hw : i.wellFormed s.cfg.width = true)
    (hg : s.gate = .passed) (hm : m ∈ i.masks) (ht : tiled m = false) :
    matcherRefusal i s = some .tableNotTiled := by
  have hall : i.masks.all tiled = false := List.all_eq_false.2 ⟨m, hm, by simp [ht]⟩
  simp [matcherRefusal, hw, hg, hall]

/-- `CHKCAP` has no check, and a matcher whose check passes answers (R83, R110, R120). -/
theorem exec_answers {i : Instr} {s : State} (h : i = .chkcap ∨ matcherRefusal i s = none) :
    ∃ t, exec i s = .next t := by
  cases i with
  | chkcap => exact ⟨_, execChkcap_eq s⟩
  | classify _ _ _ => exact ⟨_, exec_classify_of_ok (h.resolve_left (by simp))⟩
  | classifyPair _ _ _ _ _ _ => exact ⟨_, exec_classifyPair_of_ok (h.resolve_left (by simp))⟩

theorem ne_chkcap_of_mem_masks {i : Instr} {m : Vec} (hm : m ∈ i.masks) : i ≠ .chkcap := by
  rintro rfl
  cases hm

/-! ### The obligation -/

/-- Settles O7: the decoder makes the first two checks; behind it the widths are right, so `matcherRefusal` comes down
to the gate and then the tiling. -/
theorem requestsAreCheckedInOrder : Obligations.RequestsAreCheckedInOrder := by
  intro s opcode payload
  refine ⟨fun hop => ?_, fun f hf hl => ?_, fun i hd hi hg => ?_, fun i m hd hg hm ht => ?_, fun i hd hok => ?_⟩
  · exact submit_of_invalid (decode_of_reserved hop)
  · exact submit_of_invalid (decode_of_length_ne hf hl)
  · rw [submit_of_instr hd]
    exact exec_of_matcherRefusal hi (matcherRefusal_of_gate_ne_passed (wellFormed_of_decode hd) hg)
  · rw [submit_of_instr hd]
    exact exec_of_matcherRefusal (ne_chkcap_of_mem_masks hm)
      (matcherRefusal_of_not_tiled (wellFormed_of_decode hd) hg hm ht)
  · obtain ⟨t, ht⟩ := exec_answers
      (hok.imp_right fun hpass => matcherRefusal_eq_none.2 ⟨wellFormed_of_decode hd, hpass⟩)
    exact ⟨t, (submit_of_instr hd).trans ht, ht⟩

end Machine

end Sys2Proof
end

section
/-! PROOFS. The encoding (30_encoding.md R61 to R71): a payload is its operands one after the other, so encoding undoes
decoding; which byte of a request is which lane; and which requests do not decode. -/

namespace Sys2Proof

/-! ### A payload and its operands -/

/-- The first `n` operands of a payload, one after the other, are its first `n*S` bytes (R63). -/
theorem flatten_payloadOperands (w : LaneWidth) (payload : List Byte) (n : Nat) :
    ((List.range n).map (payloadOperand w payload)).flatten = payload.take (n * w.bytes) := by
  induction n with
  | zero => simp
  | succ n ih =>
    rw [List.range_succ, List.map_append, List.flatten_append, ih, Nat.succ_mul, List.take_add]
    simp [payloadOperand]

theorem format_assemble (w : LaneWidth) (payload : List Byte) (f : Format) : (assemble w payload f).format = f := by
  cases f <;> rfl

theorem operands_assemble (w : LaneWidth) (payload : List Byte) (f : Format) :
    (assemble w payload f).operands = (List.range f.operandCount).map (payloadOperand w payload) := by
  cases f <;> rfl

theorem encode_assemble {w : LaneWidth} {payload : List Byte} {f : Format}
    (hl : payload.length = f.operandCount * w.bytes) : encode (assemble w payload f) = opcodeOf f :: payload := by
  rw [encode, format_assemble, operands_assemble, flatten_payloadOperands, ← hl, List.take_length]

/-! ### Requests that decode -/

/-- A request with the opcode and the length of a format decodes to the operation its payload carries (R71). -/
theorem decode_of_format {w : LaneWidth} {request : List Byte} {f : Format}
    (hlen : request.length = f.requestLength w) (hop : request.head? = some (opcodeOf f)) :
    ∃ payload, request = opcodeOf f :: payload ∧ payload.length = f.operandCount * w.bytes ∧
      decode w request = .instr (assemble w payload f) := by
  cases request with
  | nil => cases hop
  | cons opcode payload =>
    obtain rfl : opcode = opcodeOf f := by simpa using hop
    rw [List.length_cons] at hlen
    refine ⟨payload, rfl, by rw [Format.requestLength] at hlen; omega, ?_⟩
    rw [decode_cons, formatOfOpcode_opcodeOf]
    exact if_pos hlen

/-- Lane `i` of operand `k` is byte `1 + k*S + i` of the request (R63, R65, R66). -/
theorem getElem?_request {w : LaneWidth} (opcode : Byte) {payload : List Byte} {n k i : Nat}
    (hl : payload.length = n * w.bytes) (hk : k < n) (hi : i < w.bytes) :
    (opcode :: payload)[1 + k * w.bytes + i]? = some (Machine.lane (payloadOperand w payload k) i) := by
  have hle : (k + 1) * w.bytes ≤ n * w.bytes := Nat.mul_le_mul_right _ hk
  have hlt : k * w.bytes + i < payload.length := by rw [Nat.succ_mul] at hle; omega
  rw [lane_payloadOperand _ _ hi, Nat.add_assoc, Nat.add_comm 1, List.getElem?_cons_succ,
    List.getElem?_eq_getElem hlt, List.getD_eq_getElem _ _ hlt]

/-! ### Requests that do not decode -/

/-- A non-empty request that does not decode has a reserved opcode, or its format's opcode and another length. -/
theorem decode_invalid_cases {w : LaneWidth} {opcode : Byte} {payload : List Byte} {r : InvalidRequest}
    (h : decode w (opcode :: payload) = .invalid r) :
    3 ≤ opcode.toNat ∨ ∃ f, opcode = opcodeOf f ∧ payload.length + 1 ≠ f.requestLength w := by
  cases hf : formatOfOpcode opcode with
  | none => exact .inl (formatOfOpcode_eq_none.1 hf)
  | some f =>
    refine .inr ⟨f, opcode_of_format hf, fun hl => ?_⟩
    simp [decode_cons, hf, hl] at h

/-! ### The obligations -/

/-- Settles O1: the decoder finds the format by its opcode and cuts the payload back into the operands. -/
theorem decodeOfEncodeIsTheOperation : Obligations.DecodeOfEncodeIsTheOperation :=
  fun _ _ h => decode_encode h

/-- Settles O2: what decodes is assembled from a payload of its format's length, and the operands cut from such a
payload are the payload again. -/
theorem encodeOfDecodeIsTheRequest : Obligations.EncodeOfDecodeIsTheRequest := by
  intro w request i h
  refine ⟨wellFormed_of_decode h, ?_⟩
  obtain ⟨f, payload, rfl, hl, rfl⟩ := decode_instr_cases h
  exact encode_assemble hl

/-- Settles O3: the three operands are cut from the payload at the offsets 0, S and 2S. -/
theorem classifyOperandsStandAtTheirOffsets : Obligations.ClassifyOperandsStandAtTheirOffsets := by
  intro w request hlen hop
  obtain ⟨payload, rfl, hl, hd⟩ := decode_of_format (f := .v3) hlen hop
  have hwidth {k : Nat} (hk : k < 3) := length_payloadOperand hl hk
  refine ⟨_, _, _, hd, hwidth (by decide), hwidth (by decide), hwidth (by decide), fun i hi => ?_⟩
  have hbyte {k : Nat} (hk : k < 3) := getElem?_request (opcodeOf .v3) hl hk hi
  have h0 := hbyte (k := 0) (by decide)
  have h1 := hbyte (k := 1) (by decide)
  rw [Nat.zero_mul, Nat.add_zero] at h0
  rw [Nat.one_mul] at h1
  exact ⟨h0, h1, hbyte (by decide)⟩

/-- Settles O4: the six operands are cut from the payload at the multiples of S. -/
theorem pairOperandsStandAtTheirOffsets : Obligations.PairOperandsStandAtTheirOffsets := by
  intro w request hlen hop
  obtain ⟨payload, rfl, hl, hd⟩ := decode_of_format (f := .v6) hlen hop
  have hwidth {k : Nat} (hk : k < 6) := length_payloadOperand hl hk
  refine ⟨_, _, _, _, _, _, hd, by simp [hwidth], fun i hi => ?_⟩
  have hbyte {k : Nat} (hk : k < 6) := getElem?_request (opcodeOf .v6) hl hk hi
  have h0 := hbyte (k := 0) (by decide)
  have h1 := hbyte (k := 1) (by decide)
  rw [Nat.zero_mul, Nat.add_zero] at h0
  rw [Nat.one_mul] at h1
  exact ⟨h0, h1, hbyte (by decide), hbyte (by decide), hbyte (by decide), hbyte (by decide)⟩

/-- Settles O5: an opcode is reserved or selects a format, and then only the length is left to reject. -/
theorem decodeRejectsByName : Obligations.DecodeRejectsByName := by
  intro w
  refine ⟨rfl, fun opcode payload => ⟨decode_of_reserved, ?_, ?_, ?_, fun r h => ?_⟩⟩
  · rintro rfl hl
    exact decode_of_length_ne (f := .k) rfl (by simpa [Format.requestLength, Format.operandCount] using hl)
  · rintro rfl hl
    exact decode_of_length_ne (f := .v3) rfl hl
  · rintro rfl hl
    exact decode_of_length_ne (f := .v6) rfl hl
  · rcases decode_invalid_cases h with hres | ⟨f, rfl, hl⟩
    · exact .inl hres
    · cases f with
      | k => exact .inr (.inl ⟨rfl, by simpa [Format.requestLength, Format.operandCount] using hl⟩)
      | v3 => exact .inr (.inr (.inl ⟨rfl, hl⟩))
      | v6 => exact .inr (.inr (.inr ⟨rfl, hl⟩))

/-- Settles O6, by decoding the three requests of 95_test_vectors.md. -/
theorem knownRequestsDecodeRight : Obligations.KnownRequestsDecodeRight := by
  unfold Obligations.KnownRequestsDecodeRight
  decide

end Sys2Proof
end

section
/-! PROOFS. What an operation answers (30_encoding.md R61, 00_scope.md R14): a function of its operands and the
configuration, of its format's length; and what a step does with a request (R69, R70, R153). -/

namespace Sys2Proof.Machine

/-! ### The answer of an operation -/

/-- The response of an operation that passes its checks; `exec_responses` ties it to the model. -/
def answer (c : Config) : Instr → Response
  | .chkcap => .status (capabilityStatus c)
  | .classify maskLow maskHigh chars => .matchVector (classifyFn c.width maskLow maskHigh chars)
  | .classifyPair mask1Low mask1High mask2Low mask2High carryIn chars =>
      .pair (pairResult c.width mask1Low mask1High mask2Low mask2High carryIn chars)
        (classifyFn c.width mask1Low mask1High chars)

/-- An operation that answers a next state delivers its answer, and the earlier responses stay. -/
theorem exec_responses {i : Instr} {s t : State} (h : exec i s = .next t) :
    t.responses = s.responses ++ [answer s.cfg i] := by
  rcases exec_next_cases h with ⟨rfl, rfl⟩ | ⟨_, _, _, rfl, -, rfl⟩ | ⟨_, _, _, _, _, _, rfl, -, rfl⟩ <;> rfl

/-- A matcher that answers has passed its check. -/
theorem matcherRefusal_of_next {i : Instr} {s t : State} (hi : i ≠ .chkcap) (h : exec i s = .next t) :
    matcherRefusal i s = none := by
  rcases exec_next_cases h with ⟨hc, -⟩ | ⟨_, _, _, -, hok, -⟩ | ⟨_, _, _, _, _, _, -, hok, -⟩
  · exact absurd hc hi
  · exact hok
  · exact hok

/-- The operands of an operation that answers have the instance's width. -/
theorem wellFormed_of_next {i : Instr} {s t : State} (h : exec i s = .next t) : i.wellFormed s.cfg.width = true := by
  cases i with
  | chkcap => rfl
  | classify _ _ _ => exact (matcherRefusal_eq_none.1 (matcherRefusal_of_next (by simp) h)).1
  | classifyPair _ _ _ _ _ _ => exact (matcherRefusal_eq_none.1 (matcherRefusal_of_next (by simp) h)).1

/-- The answer has the length of the operation's format (R61). -/
theorem length_bytes_answer {c : Config} {i : Instr} (h : i.wellFormed c.width = true) :
    (answer c i).bytes.length = i.format.responseLength c.width := by
  cases i with
  | chkcap => rfl
  | classify _ _ _ =>
    obtain ⟨-, -, hchars⟩ := classify_wellFormed_iff.1 h
    exact length_classifyFn _ _ _ hchars
  | classifyPair _ _ _ _ _ _ =>
    obtain ⟨-, -, -, -, -, hchars⟩ := classifyPair_wellFormed_iff.1 h
    simp [answer, Response.bytes, Instr.format, Format.responseLength, hchars, Nat.two_mul]

theorem answer_eq_status {c : Config} {i : Instr} {st : Status} (h : answer c i = .status st) :
    i = .chkcap ∧ capabilityStatus c = st := by
  cases i with
  | chkcap => exact ⟨rfl, Response.status.inj h⟩
  | classify _ _ _ => cases h
  | classifyPair _ _ _ _ _ _ => cases h

/-- The truth table of R80. -/
theorem capabilityStatus_eq_archError {c : Config} :
    capabilityStatus c = .archError ↔ c.backend = .hwSpecific ∧ c.featurePresent = false := by
  cases hb : c.backend <;> cases hf : c.featurePresent <;> simp [capabilityStatus, hb, hf]

theorem capabilityStatus_eq_success {c : Config} :
    capabilityStatus c = .success ↔ c.backend = .portable ∨ c.featurePresent = true := by
  cases hb : c.backend <;> cases hf : c.featurePresent <;> simp [capabilityStatus, hb, hf]

/-- Settles O8: the one response added is the answer, and an operation that answers is well formed. -/
theorem oneResponsePerRequestOfItsLength : Obligations.OneResponsePerRequestOfItsLength :=
  fun _ _ _ h => ⟨_, exec_responses h, length_bytes_answer (wellFormed_of_next h)⟩

/-- Settles O46: `answer` takes nothing of the state but the configuration. -/
theorem responseDependsOnOperandsOnly : Obligations.ResponseDependsOnOperandsOnly := by
  intro i s t s' t' hcfg h h'
  exact ⟨_, exec_responses h, hcfg ▸ exec_responses h'⟩

/-- Settles O18: only `CHKCAP` answers a status, and R80 says when it is ARCH_ERROR. -/
theorem archErrorComesFromChkcapAlone : Obligations.ArchErrorComesFromChkcapAlone := by
  intro i s t h hlast
  rw [exec_responses h, List.getLast?_concat, Option.some.injEq] at hlast
  obtain ⟨hi, hst⟩ := answer_eq_status hlast
  exact ⟨hi, capabilityStatus_eq_archError.1 hst⟩

/-- Settles O13, by the truth table of R80. -/
theorem chkcapAnswersTheCapability : Obligations.ChkcapAnswersTheCapability := by
  intro s
  refine ⟨fun h => ?_, fun h => ?_⟩
  · rw [exec, execChkcap_eq, capabilityStatus_eq_success.2 h]; rfl
  · rw [exec, execChkcap_eq, capabilityStatus_eq_archError.2 h]; rfl

/-! ### The step -/

theorem step_issue {s : State} {request : List Byte} {rest : List HostAction}
    (hp : s.pending = .issue request :: rest) : step s = submit request (s.setPending rest) := step_cons hp

/-- Settles O9: behind the decoder a request is its operation. -/
theorem stepRunsTheDecodedOperation : Obligations.StepRunsTheDecodedOperation := by
  intro s request rest i hp hd
  rw [step_issue hp]
  exact submit_of_instr (s := s.setPending rest) hd

/-- Settles O10: the refusal has the name of the decoder's reason. -/
theorem stepRefusesWhatDoesNotDecode : Obligations.StepRefusesWhatDoesNotDecode := by
  intro s request rest hp
  rw [step_issue hp]
  exact ⟨submit_of_invalid (s := s.setPending rest), submit_of_invalid (s := s.setPending rest)⟩

/-- Settles O11. -/
theorem idleStepChangesNothing : Obligations.IdleStepChangesNothing := fun _ => step_nil

/-! ### Faults -/

theorem exec_ne_fault (i : Instr) (s : State) (f : Fault) : exec i s ≠ .fault f := by
  by_cases hok : i = .chkcap ∨ matcherRefusal i s = none
  · obtain ⟨t, ht⟩ := exec_answers hok
    simp [ht]
  · obtain ⟨hi, hr⟩ := not_or.1 hok
    obtain ⟨r, hr⟩ := Option.ne_none_iff_exists'.1 hr
    simp [exec_of_matcherRefusal hi hr]

theorem submit_ne_fault (request : List Byte) (s : State) (f : Fault) : submit request s ≠ .fault f := by
  rcases submit_cases request s with ⟨e, -, h⟩ | ⟨i, -, h⟩
  · simp [h]
  · rw [h]; exact exec_ne_fault i s f

theorem performPairStep_fault {stream : Nat} {mask1Low mask1High mask2Low mask2High block : Vec} {s : State} {f : Fault}
    (h : performPairStep stream mask1Low mask1High mask2Low mask2High block s = .fault f) :
    s.carryOf stream = none ∧ f = .noCarry stream := by
  unfold performPairStep at h
  split at h
  · rename_i hclosed
    cases h
    exact ⟨hclosed, rfl⟩
  · split at h
    · rename_i hsubmit
      exact absurd hsubmit (submit_ne_fault _ _ _)
    · cases h
    · split at h <;> cases h

/-- A host action that faults is a pair step of a stream without a carry (log entry 6). -/
theorem perform_fault {act : HostAction} {s : State} {f : Fault} (h : perform act s = .fault f) :
    ∃ stream mask1Low mask1High mask2Low mask2High block,
      act = .pairStep stream mask1Low mask1High mask2Low mask2High block ∧ s.carryOf stream = none ∧
      f = .noCarry stream := by
  cases act with
  | issue request => exact absurd h (submit_ne_fault request s f)
  | pairStep stream a b c d block => exact ⟨stream, a, b, c, d, block, rfl, performPairStep_fault h⟩
  | startStream _ => cases h
  | endStream _ => cases h
  | resetBlock => cases h

/-- Settles O12: a matcher whose check fails is refused, and every other operation answers. -/
theorem noOperationFaults : Obligations.NoOperationFaults := by
  refine ⟨exec_ne_fault, fun s f h => ?_⟩
  cases hp : s.pending with
  | nil => rw [step_nil hp] at h; cases h
  | cons act rest =>
    rw [step_cons hp] at h
    obtain ⟨stream, a, b, c, d, block, rfl, hclosed, rfl⟩ := perform_fault h
    exact ⟨stream, a, b, c, d, block, rest, rfl, hclosed, rfl⟩

end Sys2Proof.Machine
end

section
/-! PROOFS. The invariant (10_state.md section 6): which state updates keep it, that every step keeps it, and what is
delivered where the capability is absent (40_platform_capability.md R84, 60_exceptions.md R150). -/

namespace Sys2Proof.Machine

/-! ### State updates that keep the invariant -/

section Updates

variable {s : State}

theorem legal_respond {r : Response} (hs : s.legal = true) (hr : legalResponse s.cfg r = true) :
    (s.respond r).legal = true := by
  obtain ⟨hgate, hwf, hbound, hrise, hcarries, hresponses⟩ := legal_iff.1 hs
  refine legal_iff.2 ⟨hgate, hwf, hbound, hrise, hcarries, fun q hq => ?_⟩
  rcases List.mem_append.1 hq with hq | hq
  · exact hresponses q hq
  · rw [List.mem_singleton.1 hq]; exact hr

theorem legal_setGate {g : Gate} (hs : s.legal = true) (hg : legalGate s.cfg g = true) :
    (s.setGate g).legal = true := by
  obtain ⟨-, hrest⟩ := legal_iff.1 hs
  exact legal_iff.2 ⟨hg, hrest⟩

theorem legal_setStg {m : Memory} (hs : s.legal = true) (hwf : Memory.wf m = true)
    (hbound : ∀ e ∈ m, e.1 < stagingBytes s.cfg.width) : (s.setStg m).legal = true := by
  obtain ⟨hgate, -, -, hrest⟩ := legal_iff.1 hs
  exact legal_iff.2 ⟨hgate, hwf, hbound, hrest⟩

theorem legal_setPending (p : List HostAction) (hs : s.legal = true) : (s.setPending p).legal = true := hs

theorem legal_setCarry (stream : Nat) {v : Vec} (hs : s.legal = true) (hv : legalMatchVector s.cfg.width v = true) :
    (s.setCarry stream v).legal = true := by
  obtain ⟨hgate, hwf, hbound, hrise, hcarries, hresponses⟩ := legal_iff.1 hs
  refine legal_iff.2 ⟨hgate, hwf, hbound, keysRise_setKey stream v hrise, fun e he => ?_, hresponses⟩
  rcases mem_setKey he with rfl | he
  · exact hv
  · exact hcarries e he

theorem legal_dropCarry (stream : Nat) (hs : s.legal = true) : (s.dropCarry stream).legal = true := by
  obtain ⟨hgate, hwf, hbound, hrise, hcarries, hresponses⟩ := legal_iff.1 hs
  exact legal_iff.2 ⟨hgate, hwf, hbound, keysRise_eraseKey stream hrise, fun e he => hcarries e (mem_eraseKey he),
    hresponses⟩

theorem legal_resetInstance (hs : s.legal = true) : s.resetInstance.legal = true := by
  obtain ⟨-, -, -, hrest⟩ := legal_iff.1 hs
  exact legal_iff.2 ⟨legalGate_cases.2 (.inl rfl), wf_resetInstance s, by simp, hrest⟩

end Updates

/-! ### Vectors and responses the block gives -/

theorem legalMatchVector_iff {w : LaneWidth} {v : Vec} :
    legalMatchVector w v = true ↔ v.length = w.bytes ∧ isMatchVector v = true := by
  rw [legalMatchVector, Bool.and_eq_true, hasWidth_iff]

theorem isMatchVector_neutralCarry (w : LaneWidth) : isMatchVector (neutralCarry w) = true :=
  isMatchVector_iff.2 fun _ hi => .inl (lane_neutralCarry (by simpa using hi))

theorem legalMatchVector_classifyFn {w : LaneWidth} (maskLow maskHigh : Vec) {chars : Vec}
    (hc : chars.length = w.bytes) : legalMatchVector w (classifyFn w maskLow maskHigh chars) = true :=
  legalMatchVector_iff.2 ⟨length_classifyFn _ _ _ hc, isMatchVector_classifyFn _ _ _ _⟩

theorem legalMatchVector_pairResult {w : LaneWidth} (mask1Low mask1High mask2Low mask2High carryIn : Vec) {chars : Vec}
    (hc : chars.length = w.bytes) :
    legalMatchVector w (pairResult w mask1Low mask1High mask2Low mask2High carryIn chars) = true :=
  legalMatchVector_iff.2 ⟨length_pairResult _ _ _ _ _ hc, isMatchVector_pairLanes _ _⟩

/-- What a well-formed operation answers is the configuration's status or MatchVectors of its width (R31, R81). -/
theorem legalResponse_answer {c : Config} {i : Instr} (h : i.wellFormed c.width = true) :
    legalResponse c (answer c i) = true := by
  cases i with
  | chkcap => exact decide_eq_true rfl
  | classify _ _ _ =>
    obtain ⟨-, -, hchars⟩ := classify_wellFormed_iff.1 h
    exact legalMatchVector_classifyFn _ _ hchars
  | classifyPair _ _ _ _ _ _ =>
    obtain ⟨-, -, -, -, -, hchars⟩ := classifyPair_wellFormed_iff.1 h
    exact Bool.and_eq_true_iff.2 ⟨legalMatchVector_pairResult _ _ _ _ _ hchars, legalMatchVector_classifyFn _ _ hchars⟩

/-- The staging sequence stores inside `0 .. 2S-1` (R46, R123). -/
theorem legal_setStg_place {s : State} {carryIn c1 : Vec} (hs : s.legal = true)
    (hcarry : carryIn.length = s.cfg.width.bytes) (h1 : c1.length = s.cfg.width.bytes) :
    (s.setStg (Memory.place s.cfg.width.bytes c1 (Memory.place 0 carryIn s.stg))).legal = true := by
  obtain ⟨-, hwf, hbound, -⟩ := legal_iff.1 hs
  exact legal_setStg hs (wf_place _ _ (wf_place _ _ hwf))
    (place_bound (by rw [stagingBytes]; omega) (place_bound (by rw [stagingBytes]; omega) hbound))

/-! ### Operations, host actions and steps -/

theorem exec_keeps_legal {i : Instr} {s t : State} (hs : s.legal = true) (h : exec i s = .next t) :
    t.legal = true := by
  have hw := wellFormed_of_next h
  have hanswer := legalResponse_answer hw
  rcases exec_next_cases h with ⟨rfl, rfl⟩ | ⟨_, _, _, rfl, -, rfl⟩ | ⟨_, _, _, _, _, _, rfl, -, rfl⟩
  · exact legal_respond (legal_setGate hs (legalGate_cases.2 (.inr rfl))) hanswer
  · exact legal_respond hs hanswer
  · obtain ⟨-, -, -, -, hcarry, hchars⟩ := classifyPair_wellFormed_iff.1 hw
    exact legal_respond (legal_setStg_place hs hcarry (length_classifyFn _ _ _ hchars)) hanswer

theorem submit_keeps_legal {request : List Byte} {s t : State} (hs : s.legal = true)
    (h : submit request s = .next t) : t.legal = true := by
  obtain ⟨_, -, he⟩ := submit_next h
  exact exec_keeps_legal hs he

/-- The carry a pair step keeps is one the block has answered, so it is a MatchVector of the instance's width. -/
theorem legalMatchVector_of_pair_response {s u : State} {result carryOut : Vec} (hu : u.legal = true)
    (hr : u.responses = s.responses ++ [.pair result carryOut]) : legalMatchVector u.cfg.width carryOut = true := by
  obtain ⟨-, -, -, -, -, hresponses⟩ := legal_iff.1 hu
  have hpair : legalResponse u.cfg (.pair result carryOut) = true := hresponses _ (by simp [hr])
  exact (Bool.and_eq_true_iff.1 hpair).2

theorem perform_keeps_legal {act : HostAction} {s t : State} (hs : s.legal = true) (h : perform act s = .next t) :
    t.legal = true := by
  rcases perform_next_cases h with ⟨_, _, -, -, he⟩ | ⟨stream, -, rfl⟩ |
    ⟨stream, _, _, _, _, _, _, u, _, _, -, -, hu, hr, rfl⟩ | ⟨stream, -, rfl⟩ | ⟨-, rfl⟩
  · exact exec_keeps_legal hs he
  · exact legal_setCarry stream hs (legalMatchVector_iff.2 ⟨length_neutralCarry _, isMatchVector_neutralCarry _⟩)
  · have hlegal := submit_keeps_legal hs hu
    exact legal_setCarry stream hlegal (legalMatchVector_of_pair_response hlegal hr)
  · exact legal_dropCarry stream hs
  · exact legal_resetInstance hs

theorem step_keeps_legal {s t : State} (hs : s.legal = true) (h : step s = .next t) : t.legal = true := by
  rcases step_next_cases h with ⟨-, rfl⟩ | ⟨_, rest, -, ha⟩
  · exact hs
  · exact perform_keeps_legal (legal_setPending rest hs) ha

/-- Settles O49: the answers are legal, the staging sequence stays in the buffer, and a stream's carry is the neutral
one or has been answered. -/
theorem stepKeepsTheStateLegal : Obligations.StepKeepsTheStateLegal := fun _ _ => step_keeps_legal

theorem legal_powerOn (c : Config) : (State.powerOn c).legal = true :=
  legal_iff.2 ⟨legalGate_cases.2 (.inl rfl), wf_powerOn c, by simp [State.powerOn], rfl, by simp [State.powerOn],
    by simp [State.powerOn]⟩

/-- Settles O48: a gate that is UNCHECKED is legal on every configuration, and the lists are empty. -/
theorem resetIsLegal : Obligations.ResetIsLegal := ⟨legal_powerOn, legal_powerOn Config.initial⟩

/-- Settles O42, field by field. -/
theorem powerOnValues : Obligations.PowerOnValues :=
  fun _ => ⟨rfl, rfl, fun _ => rfl, fun _ => rfl, rfl, Config.initial, rfl⟩

/-! ### An instance whose capability is absent -/

/-- From `s` to `t` nothing but ARCH_ERROR has been delivered. -/
def OnlyArchErrors (s t : State) : Prop :=
  ∃ rs, t.responses = s.responses ++ rs ∧ ∀ r ∈ rs, r = .status .archError

theorem OnlyArchErrors.of_responses_eq {s t : State} (h : t.responses = s.responses) : OnlyArchErrors s t :=
  ⟨[], by rw [h, List.append_nil], by simp⟩

theorem OnlyArchErrors.trans {s t u : State} (hst : OnlyArchErrors s t) (htu : OnlyArchErrors t u) :
    OnlyArchErrors s u := by
  obtain ⟨rs, hrs, hall⟩ := hst
  obtain ⟨qs, hqs, hall'⟩ := htu
  refine ⟨rs ++ qs, by rw [hqs, hrs, List.append_assoc], fun r hr => ?_⟩
  exact (List.mem_append.1 hr).elim (hall r) (hall' r)

/-- Without the capability no `CHKCAP` opens the gate (R84). -/
theorem gate_ne_passed_of_legal {s : State} (hs : s.legal = true) (habsent : capabilityStatus s.cfg = .archError) :
    s.gate ≠ .passed := by
  obtain ⟨hgate, -⟩ := legal_iff.1 hs
  rcases legalGate_cases.1 hgate with hg | hg
  · simp [hg]
  · simp [hg, habsent, gateOfStatus]

theorem exec_onlyArchErrors {i : Instr} {s t : State} (hs : s.legal = true)
    (habsent : capabilityStatus s.cfg = .archError) (h : exec i s = .next t) : OnlyArchErrors s t := by
  have hi : i = .chkcap := by
    by_contra hi
    obtain ⟨-, hpassed, -⟩ := matcherRefusal_eq_none.1 (matcherRefusal_of_next hi h)
    exact gate_ne_passed_of_legal hs habsent hpassed
  subst hi
  exact ⟨_, exec_responses h, by simp [answer, habsent]⟩

theorem perform_onlyArchErrors {act : HostAction} {s t : State} (hs : s.legal = true)
    (habsent : capabilityStatus s.cfg = .archError) (h : perform act s = .next t) : OnlyArchErrors s t := by
  rcases perform_next_cases h with ⟨_, _, -, -, he⟩ | ⟨_, -, rfl⟩ |
    ⟨_, _, _, _, _, _, _, u, _, _, -, -, hu, -, rfl⟩ | ⟨_, -, rfl⟩ | ⟨-, rfl⟩
  case inl => exact exec_onlyArchErrors hs habsent he
  case inr.inr.inl =>
    obtain ⟨_, -, he⟩ := submit_next hu
    exact (exec_onlyArchErrors hs habsent he : OnlyArchErrors s u)
  all_goals exact .of_responses_eq rfl

theorem step_onlyArchErrors {s t : State} (hs : s.legal = true) (habsent : capabilityStatus s.cfg = .archError)
    (h : step s = .next t) : OnlyArchErrors s t := by
  rcases step_next_cases h with ⟨-, rfl⟩ | ⟨_, rest, -, ha⟩
  · exact .of_responses_eq rfl
  · exact perform_onlyArchErrors (s := s.setPending rest) (legal_setPending rest hs) habsent ha

/-- Settles O17: the invariant keeps the gate shut, so `CHKCAP` is the only operation that answers. -/
theorem withoutCapabilityOnlyArchError : Obligations.WithoutCapabilityOnlyArchError := by
  intro n s t hs hbackend hfeature hrun
  have habsent := capabilityStatus_eq_archError.2 ⟨hbackend, hfeature⟩
  obtain ⟨-, -, honly⟩ : t.legal = true ∧ t.cfg = s.cfg ∧ OnlyArchErrors s t :=
    run_induct (P := fun u => u.legal = true ∧ u.cfg = s.cfg ∧ OnlyArchErrors s u)
      (fun u v ⟨hlegal, hcfg, honly⟩ hstep => ⟨step_keeps_legal hlegal hstep, (step_keeps_cfg hstep).trans hcfg,
        honly.trans (step_onlyArchErrors hlegal (hcfg ▸ habsent) hstep)⟩)
      ⟨hs, rfl, .of_responses_eq rfl⟩ hrun
  exact honly

/-! ### The configuration, and a reset in mid stream -/

/-- Settles O44. -/
theorem configurationNeverChanges : Obligations.ConfigurationNeverChanges := fun _ _ _ => run_keeps_cfg

/-- Settles O43: a reset leaves the host's part of the state and the configuration, which alone decides the status. -/
theorem resetInMidStreamKeepsTheCarries : Obligations.ResetInMidStreamKeepsTheCarries := by
  intro s rest hp
  exact ⟨(s.setPending rest).resetInstance, step_cons hp, rfl, rfl, fun _ => rfl, rfl, rfl,
    fun i hw hi => matchersNeedTheGate _ i hw hi (.inl rfl), capabilityStatus s.cfg, execChkcap_eq s, execChkcap_eq _⟩

end Sys2Proof.Machine
end

section
/-! PROOFS. The staging buffer cannot be observed (10_state.md R27, 00_scope.md R14): the outcomes of an operation, of
a host action, of a step and of a run are the same but for it, whatever it holds before. -/

namespace Sys2Proof.Machine

/-- Two outcomes that agree but for the staging buffer: the same fault, the same refusal, or next states that differ
in its contents only. -/
theorem withoutStaging_eq_cases {o o' : Host.Outcome State Fault Refusal} (h : withoutStaging o = withoutStaging o') :
    (∃ f, o = .fault f ∧ o' = .fault f) ∨ (∃ r, o = .refused r ∧ o' = .refused r) ∨
      ∃ u m, o = .next (u.setStg m) ∧ o' = .next u := by
  cases o with
  | fault f =>
    cases o' with
    | fault f' => cases h; exact .inl ⟨f, rfl, rfl⟩
    | refused r => cases h
    | next u => cases h
  | refused r =>
    cases o' with
    | fault f => cases h
    | refused r' => cases h; exact .inr (.inl ⟨r, rfl, rfl⟩)
    | next u => cases h
  | next v =>
    cases o' with
    | fault f => cases h
    | refused r => cases h
    | next u =>
      have hvu : v.setStg [] = u.setStg [] := Host.Outcome.next.inj h
      have hv : (v.setStg []).setStg v.stg = (u.setStg []).setStg v.stg := congrArg (State.setStg v.stg) hvu
      exact .inr (.inr ⟨u, v.stg, congrArg Host.Outcome.next hv, rfl⟩)

section Contents

variable (m : Memory) (s : State)

theorem matcherRefusal_setStg (i : Instr) : matcherRefusal i (s.setStg m) = matcherRefusal i s := rfl

/-- `CLASSIFY_PAIR` alone uses the staging buffer, and it loads only bytes it has stored itself (R48, R123). -/
theorem withoutStaging_exec_setStg (i : Instr) :
    withoutStaging (exec i (s.setStg m)) = withoutStaging (exec i s) := by
  cases i with
  | chkcap => rfl
  | classify a b c =>
    cases hr : matcherRefusal (.classify a b c) s with
    | some r =>
      rw [exec_of_matcherRefusal (by simp) hr,
        exec_of_matcherRefusal (by simp) ((matcherRefusal_setStg m s _).trans hr)]
    | none =>
      rw [exec_classify_of_ok hr, exec_classify_of_ok ((matcherRefusal_setStg m s _).trans hr)]
      rfl
  | classifyPair a b c d e f =>
    cases hr : matcherRefusal (.classifyPair a b c d e f) s with
    | some r =>
      rw [exec_of_matcherRefusal (by simp) hr,
        exec_of_matcherRefusal (by simp) ((matcherRefusal_setStg m s _).trans hr)]
    | none =>
      rw [exec_classifyPair_of_ok hr, exec_classifyPair_of_ok ((matcherRefusal_setStg m s _).trans hr)]
      rfl

theorem withoutStaging_submit_setStg (request : List Byte) :
    withoutStaging (submit request (s.setStg m)) = withoutStaging (submit request s) := by
  rcases submit_cases request s with ⟨e, hd, h⟩ | ⟨i, hd, h⟩
  · rw [h, submit_of_invalid (s := s.setStg m) hd]
  · rw [h, submit_of_instr (s := s.setStg m) hd]
    exact withoutStaging_exec_setStg m s i

theorem newestCarryOut_setStg : newestCarryOut (s.setStg m) = newestCarryOut s := rfl

theorem withoutStaging_performPairStep_setStg (stream : Nat) (mask1Low mask1High mask2Low mask2High block : Vec) :
    withoutStaging (performPairStep stream mask1Low mask1High mask2Low mask2High block (s.setStg m)) =
      withoutStaging (performPairStep stream mask1Low mask1High mask2Low mask2High block s) := by
  cases hcarry : s.carryOf stream with
  | none => simp [performPairStep, hcarry]
  | some carry =>
    rcases withoutStaging_eq_cases (withoutStaging_submit_setStg m s
      (encode (.classifyPair mask1Low mask1High mask2Low mask2High carry block))) with
      ⟨f, h, h'⟩ | ⟨r, h, h'⟩ | ⟨u, m', h, h'⟩
    · simp [performPairStep, hcarry, h, h']
    · simp [performPairStep, hcarry, h, h']
    · simp only [performPairStep, setStg_carryOf, hcarry, h, h', newestCarryOut_setStg]
      cases newestCarryOut u with
      | none => rfl
      | some carryOut => rfl

theorem withoutStaging_perform_setStg (act : HostAction) :
    withoutStaging (perform act (s.setStg m)) = withoutStaging (perform act s) := by
  cases act with
  | issue request => exact withoutStaging_submit_setStg m s request
  | pairStep stream a b c d block => exact withoutStaging_performPairStep_setStg m s stream a b c d block
  | startStream _ => rfl
  | endStream _ => rfl
  | resetBlock => rfl

theorem withoutStaging_step_setStg : withoutStaging (step (s.setStg m)) = withoutStaging (step s) := by
  cases hp : s.pending with
  | nil => rw [step_nil hp, step_nil (s := s.setStg m) hp]; rfl
  | cons act rest =>
    rw [step_cons hp, step_cons (s := s.setStg m) hp]
    exact withoutStaging_perform_setStg m (s.setPending rest) act

end Contents

/-- Settles O45: the two runs step from states that differ in the staging buffer only, and a step keeps them so. -/
theorem stagingIsNotObservable : Obligations.StagingIsNotObservable := by
  intro n s m
  induction n generalizing s m with
  | zero => rfl
  | succ n ih =>
    rcases withoutStaging_eq_cases (withoutStaging_step_setStg m s) with ⟨f, h, h'⟩ | ⟨r, h, h'⟩ | ⟨u, m', h, h'⟩
    · rw [run_succ_of_fault h, run_succ_of_fault h']
    · rw [run_succ_of_refused h, run_succ_of_refused h']
    · rw [run_succ_of_next h, run_succ_of_next h', ih]

/-! ### Accesses that fault -/

/-- A load that answers stayed inside the buffer (R46). -/
theorem read_ok_inside {w : LaneWidth} {m : Memory} {n address : Nat} {v : Vec} (hn : 0 < n)
    (h : Memory.read w address n m = .ok v) : address + n ≤ 2 * w.bytes := by
  induction n generalizing address v with
  | zero => omega
  | succ n ih =>
    have hfirst : address < 2 * w.bytes := by
      by_contra hout
      simp [Memory.read, Memory.readByte, stagingBytes, hout] at h
    cases n with
    | zero => omega
    | succ n =>
      rw [Memory.read] at h
      split at h
      · cases h
      · split at h
        · cases h
        · rename_i hrest
          have := ih (Nat.succ_pos n) hrest
          omega

theorem read_of_unwritten {w : LaneWidth} {m : Memory} {address : Nat} (n : Nat) (ha : address < 2 * w.bytes)
    (hm : Memory.byteAt m address = none) : Memory.read w address (n + 1) m = .error (.stgUnwritten address) := by
  simp [Memory.read, Memory.readByte, stagingBytes, ha, hm]

/-- Settles O26: a store checks its whole range, a load byte by byte, the first byte before all others. -/
theorem stagingAccessOutsideFaults : Obligations.StagingAccessOutsideFaults := by
  intro w address v m
  have hpos := bytes_pos w
  refine ⟨fun hv hout => ⟨?_, ?_⟩, fun ha hm => ?_⟩
  · rw [vstore, store_eq, if_neg (by omega)]
  · cases h : vload w address m with
    | error f => exact ⟨f, rfl⟩
    | ok u =>
      have := read_ok_inside hpos h
      omega
  · obtain ⟨n, hn⟩ := Nat.exists_eq_add_one.2 hpos
    rw [vload, hn]
    exact read_of_unwritten n ha hm

end Sys2Proof.Machine
end

section
/-! PROOFS. Several instances (60_exceptions.md R160): what a step of one of them does to the list, and that steps of
two different ones commute. -/

namespace Sys2Proof.Machine

/-- A step of an instance answers a list exactly when the instance is not there and the list stays, or its own step
answers a state, which then takes its place. -/
theorem stepInstance_eq_next {k : Nat} {a b : List State} : stepInstance k a = .next b ↔
    (a[k]? = none ∧ b = a) ∨ ∃ s t, a[k]? = some s ∧ step s = .next t ∧ b = a.set k t := by
  cases hk : a[k]? with
  | none => simp [stepInstance, hk, eq_comm]
  | some s => cases hs : step s <;> simp [stepInstance, hk, hs, eq_comm]

theorem stepInstance_getElem?_ne {j k : Nat} {a b : List State} (hjk : j ≠ k) (h : stepInstance j a = .next b) :
    b[k]? = a[k]? := by
  rcases stepInstance_eq_next.1 h with ⟨-, rfl⟩ | ⟨_, _, -, -, rfl⟩
  · rfl
  · exact List.getElem?_set_ne hjk

/-- Settles O47: a step reads and writes its own instance's place in the list only. -/
theorem instancesAreIndependent : Obligations.InstancesAreIndependent := by
  intro j k a b c hjk hj hk
  have hkb : b[k]? = a[k]? := stepInstance_getElem?_ne hjk hj
  rcases stepInstance_eq_next.1 hk with ⟨hnone, rfl⟩ | ⟨s, t, hs, hstep, rfl⟩
  · exact ⟨a, stepInstance_eq_next.2 (.inl ⟨hkb ▸ hnone, rfl⟩), hj⟩
  · have hk' : stepInstance k a = .next (a.set k t) := stepInstance_eq_next.2 (.inr ⟨s, t, hkb ▸ hs, hstep, rfl⟩)
    have hjd : (a.set k t)[j]? = a[j]? := stepInstance_getElem?_ne hjk.symm hk'
    refine ⟨_, hk', stepInstance_eq_next.2 ?_⟩
    rcases stepInstance_eq_next.1 hj with ⟨hnone, rfl⟩ | ⟨u, v, hu, hstep', rfl⟩
    · exact .inl ⟨hjd.trans hnone, rfl⟩
    · exact .inr ⟨u, v, hjd.trans hu, hstep', List.set_comm _ _ hjk⟩

end Sys2Proof.Machine
end

section
/-! PROOFS. The 4-bit shift and the special cases of `CLASSIFY` (41_vector_lane_primitives.md R95,
42_single_class_matcher.md R112 to R115): leakage, isolated groups, degenerate tables, and a class without tables. -/

namespace Sys2Proof.Machine

/-! ### The 4-bit shift -/

/-- A high nibble with the next byte's low nibble above it: the two do not overlap, so the bits joined are the sum. -/
theorem toNat_nibbles_joined (x y : Byte) :
    ((x >>> 4) ||| ((y &&& 0x0F#8) <<< 4)).toNat = x.toNat / 16 + y.toNat % 16 * 16 := by
  have hx := x.isLt
  have hlow : x.toNat / 16 < 2 ^ 4 := by omega
  have hhigh : y.toNat % 16 * 16 < 2 ^ 8 := by omega
  rw [BitVec.toNat_or, byte_shr_four, BitVec.toNat_shiftLeft, byte_and_low, Nat.shiftLeft_eq,
    show 2 ^ 4 = 16 from rfl, Nat.mod_eq_of_lt hhigh, Nat.or_comm, Nat.add_comm]
  exact (Nat.shiftLeft_eq (y.toNat % 16) 4 ▸ Nat.shiftLeft_add_eq_or_of_lt hlow (y.toNat % 16)).symm

/-- Settles O21: the leakage formula of R95 as numbers is the one of the statement as bits. -/
theorem shiftStaysInItsSubLane : Obligations.ShiftStaysInItsSubLane := by
  intro w a ha
  refine ⟨by rw [length_shr4_64, ha], fun k j hj hi => ?_, fun k hi => ?_, fun i hi => lane_shr4_64_masked (ha ▸ hi)⟩
  · apply BitVec.eq_of_toNat_eq
    rw [lane_shr4_64 (by omega) (by omega), if_neg (by omega), toNat_nibbles_joined]
  · apply BitVec.eq_of_toNat_eq
    rw [lane_shr4_64 (by omega) (by omega), if_pos rfl, byte_shr_four, Nat.add_zero]

/-! ### Groups -/

theorem lane_groupOf {i : Nat} (g : Nat) (v : Vec) (hi : i < 16) : lane (groupOf g v) i = lane v (16 * g + i) := by
  simp [lane, groupOf, List.getD_eq_getElem?_getD, hi, List.getElem?_drop]

theorem length_groupOf {w : LaneWidth} {g : Nat} {v : Vec} (hv : v.length = w.bytes) (hg : g < w.bytes / 16) :
    (groupOf g v).length = 16 := by
  simp only [groupOf, groupLanes, List.length_take, List.length_drop]
  omega

/-- A vector of one group repeats nothing, so it is tiled (R12). -/
theorem tiled_of_length_le {m : Vec} (h : m.length ≤ 16) : tiled m = true :=
  tiled_iff.2 fun i hi => by rw [Nat.mod_eq_of_lt (by omega)]

/-- A lookup stays in its group, so a group of the data path is the data path of width 16 on that group (R98, R115). -/
theorem groupOf_classifyFn {w : LaneWidth} {g : Nat} (maskLow maskHigh : Vec) {chars : Vec}
    (hc : chars.length = w.bytes) (hg : g < w.bytes / 16) :
    groupOf g (classifyFn w maskLow maskHigh chars) =
      classifyFn .w16 (groupOf g maskLow) (groupOf g maskHigh) (groupOf g chars) := by
  have hgroup : (groupOf g chars).length = LaneWidth.w16.bytes := length_groupOf hc hg
  have hlen := length_groupOf (length_classifyFn w maskLow maskHigh hc) hg
  refine vec_ext (hlen.trans (length_classifyFn _ _ _ hgroup).symm) fun i hi => ?_
  have hi16 : i < 16 := hlen ▸ hi
  have hb := (lane chars (16 * g + i)).isLt
  rw [lane_groupOf g _ hi16, lane_classifyFn hc (by omega), lane_classifyFn hgroup hi16, lane_groupOf g _ hi16,
    Nat.div_eq_of_lt hi16, lane_groupOf g _ (by omega), lane_groupOf g _ (by omega),
    Nat.mul_add_div (by omega), Nat.div_eq_of_lt hi16]
  simp only [Nat.add_zero, Nat.mul_zero, Nat.zero_add]

/-- Settles O28: both calls pass their check, and the group of the one's data path is the other's. -/
theorem classifyGroupsAreIsolated : Obligations.ClassifyGroupsAreIsolated := by
  intro s s16 maskLow maskHigh chars g hgate hgate16 hw16 hg hlow hhigh hchars tlow thigh
  have hok := matcherRefusal_classify_eq_none.2 ⟨⟨hlow, hhigh, hchars⟩, hgate, tlow, thigh⟩
  have hlen {v : Vec} (hv : v.length = s.cfg.width.bytes) : (groupOf g v).length = s16.cfg.width.bytes := by
    rw [hw16]; exact length_groupOf hv hg
  have htiled {v : Vec} (hv : v.length = s.cfg.width.bytes) : tiled (groupOf g v) = true :=
    tiled_of_length_le (length_groupOf hv hg).le
  have hok16 := matcherRefusal_classify_eq_none.2
    ⟨⟨hlen hlow, hlen hhigh, hlen hchars⟩, hgate16, htiled hlow, htiled hhigh⟩
  refine ⟨_, exec_classify_of_ok hok, ?_⟩
  rw [exec_classify_of_ok hok16, hw16, groupOf_classifyFn maskLow maskHigh hchars hg]

/-! ### Degenerate tables -/

/-- Every lane of `ZERO_S` reads zero, a lane past its width too (log entry 12). -/
theorem lane_zeroVec (w : LaneWidth) (i : Nat) : lane (zeroVec w) i = 0x00#8 := by
  by_cases hi : i < w.bytes
  · exact lane_broadcast hi _
  · simp [lane, zeroVec, hi]

theorem classifyFn_of_zero_table {w : LaneWidth} {maskLow maskHigh chars : Vec} (hc : chars.length = w.bytes)
    (h : maskLow = zeroVec w ∨ maskHigh = zeroVec w) : classifyFn w maskLow maskHigh chars = onesVec w := by
  have hlen := length_classifyFn w maskLow maskHigh hc
  refine vec_ext (hlen.trans (length_broadcast w _).symm) fun i hi => ?_
  have hi' : i < w.bytes := hlen ▸ hi
  rw [lane_classifyFn hc hi', onesVec, lane_broadcast hi']
  rcases h with rfl | rfl
  · rw [lane_zeroVec, BitVec.zero_and]; rfl
  · rw [lane_zeroVec, BitVec.and_zero]; rfl

theorem classifyFn_of_ones_tables {w : LaneWidth} {chars : Vec} (hc : chars.length = w.bytes) :
    classifyFn w (onesVec w) (onesVec w) chars = zeroVec w := by
  have hlen := length_classifyFn w (onesVec w) (onesVec w) hc
  refine vec_ext (hlen.trans (length_broadcast w _).symm) fun i hi => ?_
  have hi' : i < w.bytes := hlen ▸ hi
  have hb := (lane chars i).isLt
  have hentry {n : Nat} (hn : n < 16) : lane (onesVec w) (16 * (i / 16) + n) = 0xFF#8 :=
    lane_broadcast (group_bound hi' hn) _
  rw [lane_classifyFn hc hi', hentry (by omega), hentry (by omega), zeroVec, lane_broadcast hi']
  rfl

/-- Settles O29: with a zero table every lookup is zero, with two all-ones tables none is. -/
theorem classifyWithDegenerateTables : Obligations.ClassifyWithDegenerateTables := by
  intro s maskLow maskHigh chars hgate hlow hhigh hchars tlow thigh
  have hexec := exec_classify_of_ok
    (matcherRefusal_classify_eq_none.2 ⟨⟨hlow, hhigh, hchars⟩, hgate, tlow, thigh⟩)
  refine ⟨fun hzero => ?_, fun hones => ?_⟩
  · rw [hexec, classifyFn_of_zero_table hchars hzero]
  · obtain ⟨rfl, rfl⟩ := hones
    rw [hexec, classifyFn_of_ones_tables hchars]

/-! ### A class without tables -/

/-- The byte whose low nibble is `i` and whose high nibble is `j`. -/
def nibbleByte (i j : Fin 16) : Byte := BitVec.ofNat 8 (i.val + 16 * j.val)

theorem toNat_nibbleByte (i j : Fin 16) : (nibbleByte i j).toNat = i.val + 16 * j.val := by
  rw [nibbleByte, BitVec.toNat_ofNat, Nat.mod_eq_of_lt]
  omega

/-- A byte is outside the class of two tables exactly if their entries for its nibbles share a flag bit (R113). -/
theorem classOf_nibbleByte_eq_false {low high : Vec} {i j : Fin 16} : classOf low high (nibbleByte i j) = false ↔
    ∃ k : Fin 8, (lane low i).getLsbD k = true ∧ (lane high j).getLsbD k = true := by
  have hmod : (nibbleByte i j).toNat % 16 = i := by rw [toNat_nibbleByte]; omega
  have hdiv : (nibbleByte i j).toNat / 16 = j := by rw [toNat_nibbleByte]; omega
  rw [classOf_eq, hmod, hdiv, beq_eq_false_iff_ne]
  constructor
  · intro hne
    by_contra hnone
    refine hne (BitVec.eq_of_getLsbD_eq fun k hk => ?_)
    rw [BitVec.getLsbD_and, BitVec.getLsbD_zero, Bool.and_eq_false_iff]
    by_contra hbits
    simp only [not_or, Bool.not_eq_false] at hbits
    exact hnone ⟨⟨k, hk⟩, hbits⟩
  · rintro ⟨k, hlow, hhigh⟩ hzero
    have hbit : (lane low i &&& lane high j).getLsbD k = false := by rw [hzero, BitVec.getLsbD_zero]
    rw [BitVec.getLsbD_and, hlow, hhigh] at hbit
    cases hbit

/-- Settles O30: the bytes whose two nibbles differ. Each of the 16 bytes outside this class needs a flag bit that its
two entries share; there are 8 flag bits, so two of those bytes share one, and then the low nibble of the one with the
high nibble of the other is outside the class too. -/
theorem someClassHasNoTables : Obligations.SomeClassHasNoTables := by
  refine ⟨fun b => decide (b.toNat % 16 ≠ b.toNat / 16), fun low high => ?_⟩
  by_contra hall
  push Not at hall
  have hclass (i j : Fin 16) : classOf low high (nibbleByte i j) = decide (i ≠ j) := by
    rw [hall, toNat_nibbleByte]
    congr 1
    rw [ne_eq, ne_eq, Fin.ext_iff, show (i.val + 16 * j.val) % 16 = i by omega,
      show (i.val + 16 * j.val) / 16 = j by omega]
  have hshared (i : Fin 16) : ∃ k : Fin 8, (lane low i).getLsbD k = true ∧ (lane high i).getLsbD k = true :=
    classOf_nibbleByte_eq_false.1 (by simp [hclass])
  choose flag hlow hhigh using hshared
  obtain ⟨i, j, hij, hflag⟩ := Fintype.exists_ne_map_eq_of_card_lt flag (by simp)
  have hout : classOf low high (nibbleByte i j) = false :=
    classOf_nibbleByte_eq_false.2 ⟨flag i, hlow i, hflag ▸ hhigh j⟩
  rw [hclass] at hout
  exact hij (by simpa using hout)

end Sys2Proof.Machine
end

section
/-! PROOFS. `CLASSIFY_PAIR`, the staging buffer and the carry (43_double_class_matcher.md R123, R126, R128). -/

namespace Sys2Proof.Machine

/-- Settles O32: the second store starts where the first ends, so the buffer holds both vectors. -/
theorem classifyPairFillsTheStagingBuffer : Obligations.ClassifyPairFillsTheStagingBuffer := by
  intro s t mask1Low mask1High mask2Low mask2High carryIn chars h
  obtain ⟨hok, hresponses⟩ := exec_classifyPair_next h
  obtain ⟨hlen, -, -⟩ := matcherRefusal_classifyPair_eq_none.1 hok
  have hcarry : carryIn.length = s.cfg.width.bytes := hlen _ (by simp)
  have hc1 : (classifyFn s.cfg.width mask1Low mask1High chars).length = s.cfg.width.bytes :=
    length_classifyFn _ _ _ (hlen chars (by simp))
  rw [exec_classifyPair_of_ok hok] at h
  cases h
  refine ⟨_, _, hresponses, fun j hj => ?_, fun j hj => ?_, fun a ha => ?_⟩
  · rw [byteAt_place, if_neg (by omega), byteAt_place, if_pos (by omega), Nat.sub_zero]
  · rw [byteAt_place, if_pos (by omega), Nat.add_sub_cancel_left]
  · rw [byteAt_place, if_neg (by omega), byteAt_place, if_neg (by omega)]

section Carry

variable {mask1Low mask1High mask2Low mask2High carry carry' chars : Vec} {s : State}

/-- No check of `CLASSIFY_PAIR` looks at the carry but that of its width (R120). -/
theorem matcherRefusal_classifyPair_of_carry
    (h : matcherRefusal (.classifyPair mask1Low mask1High mask2Low mask2High carry chars) s = none)
    (hcarry : carry'.length = s.cfg.width.bytes) :
    matcherRefusal (.classifyPair mask1Low mask1High mask2Low mask2High carry' chars) s = none := by
  obtain ⟨hlen, hgate, htiled⟩ := matcherRefusal_classifyPair_eq_none.1 h
  refine matcherRefusal_classifyPair_eq_none.2 ⟨?_, hgate, htiled⟩
  simp only [List.forall_mem_cons] at hlen ⊢
  obtain ⟨hlow1, hhigh1, hlow2, hhigh2, -, hchars⟩ := hlen
  exact ⟨hlow1, hhigh1, hlow2, hhigh2, hcarry, hchars⟩

/-- A call with another carry of the instance's width answers too, and delivers the same response if the results
agree. -/
theorem exec_classifyPair_of_pairResult_eq {t : State}
    (h : exec (.classifyPair mask1Low mask1High mask2Low mask2High carry chars) s = .next t)
    (hcarry : carry'.length = s.cfg.width.bytes)
    (hresult : pairResult s.cfg.width mask1Low mask1High mask2Low mask2High carry' chars =
      pairResult s.cfg.width mask1Low mask1High mask2Low mask2High carry chars) :
    ∃ u, exec (.classifyPair mask1Low mask1High mask2Low mask2High carry' chars) s = .next u ∧
      u.responses = t.responses := by
  obtain ⟨hok, hresponses⟩ := exec_classifyPair_next h
  exact ⟨_, exec_classifyPair_of_ok (matcherRefusal_classifyPair_of_carry hok hcarry), by rw [hresponses, hresult]⟩

/-- The window read back takes the last lane of the carry only (R123). -/
theorem shiftedLanes_of_last_eq {w : LaneWidth} (c1 : Vec)
    (h : lane carry (w.bytes - 1) = lane carry' (w.bytes - 1)) :
    shiftedLanes w carry c1 = shiftedLanes w carry' c1 := by
  rw [shiftedLanes, shiftedLanes, h]

/-- Whether the last carry lane is all-ones is all of the carry that the result depends on (R127). -/
theorem pairResult_of_last_ne_ones {w : LaneWidth} (hlow : mask2Low.length = w.bytes)
    (hhigh : mask2High.length = w.bytes) (tlow : tiled mask2Low = true) (thigh : tiled mask2High = true)
    (hc : chars.length = w.bytes) (h : lane carry (w.bytes - 1) ≠ 0xFF#8) (h' : lane carry' (w.bytes - 1) ≠ 0xFF#8) :
    pairResult w mask1Low mask1High mask2Low mask2High carry' chars =
      pairResult w mask1Low mask1High mask2Low mask2High carry chars := by
  refine vec_ext (by simp [hc]) fun i hi => ?_
  have hi' : i < w.bytes := by simpa [hc] using hi
  rw [lane_pairResult _ _ _ hlow hhigh tlow thigh hc hi', lane_pairResult _ _ _ hlow hhigh tlow thigh hc hi',
    lane_shiftedLanes hi', lane_shiftedLanes hi']
  by_cases hzero : i = 0
  · simp [hzero, h, h']
  · simp [hzero]

end Carry

/-- Settles O34: the staging sequence passes on the last carry lane only. -/
theorem onlyTheLastCarryLaneMatters : Obligations.OnlyTheLastCarryLaneMatters := by
  intro s t mask1Low mask1High mask2Low mask2High carry1 carry2 chars _ h2 hlast h
  exact exec_classifyPair_of_pairResult_eq h h2 (by rw [pairResult, pairResult, shiftedLanes_of_last_eq _ hlast])

/-- Settles O35: a last carry lane that is not all-ones and that of the neutral carry give one and the same result. -/
theorem partialCarryLaneIsNoCandidate : Obligations.PartialCarryLaneIsNoCandidate := by
  intro s t mask1Low mask1High mask2Low mask2High carryIn chars hlast h
  have hpos := bytes_pos s.cfg.width
  obtain ⟨hok, hresponses⟩ := exec_classifyPair_next h
  obtain ⟨hlen, -, htiled⟩ := matcherRefusal_classifyPair_eq_none.1 hok
  have hlow := hlen mask2Low (by simp)
  have hhigh := hlen mask2High (by simp)
  have tlow := htiled mask2Low (by simp)
  have thigh := htiled mask2High (by simp)
  have hchars := hlen chars (by simp)
  have hneutral : lane (neutralCarry s.cfg.width) (s.cfg.width.bytes - 1) ≠ 0xFF#8 := by
    rw [lane_neutralCarry (by omega)]; decide
  refine ⟨_, _, hresponses, ?_, exec_classifyPair_of_pairResult_eq h (length_neutralCarry _)
    (pairResult_of_last_ne_ones hlow hhigh tlow thigh hchars hlast hneutral)⟩
  rw [lane_pairResult _ _ _ hlow hhigh tlow thigh hchars hpos, lane_shiftedLanes hpos, if_pos rfl]
  simp [hlast, hitLane]

end Sys2Proof.Machine
end

section
/-! PROOFS. Streams (44_stream_protocol.md R135 to R141): what their start, their end and a pair step leave unchanged,
and that the pairs found do not depend on the width of the blocks. -/

namespace Sys2Proof.Machine

/-! ### Start, pair step and end -/

theorem neutralCarry_eq_replicate (w : LaneWidth) : neutralCarry w = List.replicate w.bytes 0x00#8 := by
  simp [neutralCarry, zeroVec, broadcast, buildVec]

/-- Settles O37: the two steps set and drop the stream's entry among the carries. -/
theorem streamStartAndEnd : Obligations.StreamStartAndEnd := by
  intro s stream rest
  refine ⟨fun hp => ⟨_, step_cons hp, ?_, fun other hne => carryOf_setCarry_ne _ hne _, rfl⟩, fun hp =>
    ⟨_, step_cons hp, carryOf_dropCarry_self _ _, fun other hne => carryOf_dropCarry_ne _ hne, rfl⟩⟩
  rw [carryOf_setCarry_self, neutralCarry_eq_replicate]
  rfl

/-- Settles O38: `CLASSIFY_PAIR` leaves the carries to the host, which sets the stream's entry and no other. -/
theorem pairStepThreadsTheCarry : Obligations.PairStepThreadsTheCarry := by
  intro s stream mask1Low mask1High mask2Low mask2High block carry rest hp hcarry hgate hlen htiled
  obtain ⟨u, hexec, hperform⟩ := performPairStep_of_ok (s := s.setPending rest) hcarry
    (matcherRefusal_classifyPair_eq_none.2 ⟨hlen, hgate, htiled⟩)
  obtain ⟨-, hresponses⟩ := exec_classifyPair_next hexec
  obtain ⟨-, hcarries, -⟩ := exec_keeps hexec
  refine ⟨_, u, _, _, hexec, hresponses, (step_cons hp).trans hperform, rfl, carryOf_setCarry_self _ _ _,
    fun other hne => ?_⟩
  rw [carryOf_setCarry_ne _ hne, State.carryOf, hcarries]
  rfl

/-! ### The blocks of an input -/

theorem length_blocksOf (w : LaneWidth) (x : Vec) : (blocksOf w x).length = x.length / w.bytes := by
  simp [blocksOf]

theorem length_of_mem_blocksOf {w : LaneWidth} {x b : Vec} (hb : b ∈ blocksOf w x) : b.length = w.bytes := by
  obtain ⟨k, hk, rfl⟩ := List.mem_map.1 hb
  have hle : (k + 1) * w.bytes ≤ x.length :=
    (Nat.mul_le_mul_right _ (List.mem_range.1 hk)).trans (Nat.div_mul_le_self _ _)
  rw [Nat.succ_mul] at hle
  simp only [List.length_take, List.length_drop]
  omega

/-- An input of whole blocks is its blocks one after the other (R135). -/
theorem flatten_blocksOf {w : LaneWidth} {x : Vec} (hx : x.length % w.bytes = 0) : (blocksOf w x).flatten = x := by
  have hcut := flatten_payloadOperands w x (x.length / w.bytes)
  rwa [Nat.div_mul_cancel (Nat.dvd_of_mod_eq_zero hx), List.take_length] at hcut

/-! ### The result lanes of a stream -/

theorem buildVec_add (a b : Nat) (f : Nat → Byte) :
    buildVec (a + b) f = buildVec a f ++ buildVec b fun i => f (a + i) := by
  simp [buildVec, List.range_add, Function.comp_def]

theorem eq_buildVec {v : Vec} {n : Nat} {f : Nat → Byte} (hl : v.length = n) (h : ∀ i < n, lane v i = f i) :
    v = buildVec n f :=
  vec_ext (by simp [hl]) fun i hi => by rw [lane_buildVec (hl ▸ hi), h i (hl ▸ hi)]

/-- Pair responses whose results hold the lanes `f (k*S + i)` have the concatenated results `f 0, f 1, ...` (R140). -/
theorem pairResults_eq_buildVec {w : LaneWidth} {rs : List Response} {f : Nat → Byte}
    (h : ∀ k < rs.length, ∃ result carryOut, rs[k]? = some (.pair result carryOut) ∧ result.length = w.bytes ∧
      ∀ i < w.bytes, lane result i = f (k * w.bytes + i)) : pairResults rs = buildVec (rs.length * w.bytes) f := by
  induction rs generalizing f with
  | nil => simp [pairResults, buildVec]
  | cons r rs ih =>
    obtain ⟨result, carryOut, hr, hl, hlanes⟩ := h 0 (by simp)
    obtain rfl : r = .pair result carryOut := by simpa using hr
    have hhead : result = buildVec w.bytes f := eq_buildVec hl fun i hi => by simpa using hlanes i hi
    have htail : pairResults rs = buildVec (rs.length * w.bytes) fun i => f (w.bytes + i) := ih fun k hk => by
      obtain ⟨result', carryOut', hr', hl', hlanes'⟩ := h (k + 1) (by simpa using hk)
      refine ⟨result', carryOut', by simpa using hr', hl', fun i hi => ?_⟩
      rw [hlanes' i hi, Nat.succ_mul, Nat.add_comm (k * w.bytes), Nat.add_assoc]
    rw [pairResults, List.length_cons, Nat.succ_mul, Nat.add_comm, buildVec_add, ← hhead, htail]

theorem legalMask_tile (w : LaneWidth) (table : Vec) : legalMask w (tile w table) = true :=
  legalMask_iff.2 ⟨length_tile w table, tiled_tile w table⟩

/-- The class of two tables does not depend on the width they are tiled to (R113, R12). -/
theorem inClass_tile (w : LaneWidth) (low high : Vec) (b : Byte) :
    inClass (tile w low) (tile w high) b = classOf low high b := by
  have hb := b.isLt
  rw [inClass, classOf_eq, classOf_eq, lane_tableOf_tile (by omega), lane_tableOf_tile (by omega)]

/-- The lane for a position of the input: a hit if a byte of the first class stands before it and one of the second
class at it (R140). -/
def pairAt (low1 high1 low2 high2 x : Vec) (p : Nat) : Byte :=
  hitLane (decide (1 ≤ p) && classOf low1 high1 (lane x (p - 1)) && classOf low2 high2 (lane x p))

/-- `STREAM_PAIR` over an input of whole blocks delivers one lane per byte of it, and the width does not occur in
what they say (R140). -/
theorem run_streamPair_tile {s : State} {stream : Nat} {low1 high1 low2 high2 x : Vec} (hgate : s.gate = .passed)
    (hx : x.length % s.cfg.width.bytes = 0)
    (hp : s.pending = streamPair stream (tile s.cfg.width low1) (tile s.cfg.width high1) (tile s.cfg.width low2)
      (tile s.cfg.width high2) (blocksOf s.cfg.width x)) :
    ∃ t rs, run (x.length / s.cfg.width.bytes + 2) s = .next t ∧ t.responses = s.responses ++ rs ∧
      pairResults rs = buildVec x.length (pairAt low1 high1 low2 high2 x) := by
  have hmasks : ∀ m ∈ [tile s.cfg.width low1, tile s.cfg.width high1, tile s.cfg.width low2, tile s.cfg.width high2],
      legalMask s.cfg.width m = true := by simp [legalMask_tile]
  obtain ⟨t, rs, hrun, hresponses, hlen, -, -, -, -, -, hlanes⟩ :=
    streamPairFindsExactlyThePairs s stream _ _ _ _ (blocksOf s.cfg.width x) [] hgate hmasks
      (fun b => length_of_mem_blocksOf) (by rw [hp, List.append_nil])
  rw [length_blocksOf] at hrun hlen
  refine ⟨t, rs, hrun, hresponses, ?_⟩
  rw [← Nat.div_mul_cancel (Nat.dvd_of_mod_eq_zero hx), ← hlen]
  refine pairResults_eq_buildVec fun k hk => ?_
  obtain ⟨result, carryOut, hr, hl, -, hlane⟩ := hlanes k (by rw [length_blocksOf]; omega)
  refine ⟨result, carryOut, hr, hl, fun i hi => ?_⟩
  obtain ⟨hresult, -⟩ := hlane i hi
  rw [hresult, flatten_blocksOf hx, inClass_tile, inClass_tile, pairAt]

/-- Settles O40: either run delivers the lanes `pairAt` gives the positions of the input. -/
theorem pairResultsDoNotDependOnTheWidth : Obligations.PairResultsDoNotDependOnTheWidth := by
  intro s1 s2 stream low1 high1 low2 high2 x hgate1 hgate2 hx1 hx2 hp1 hp2
  obtain ⟨t1, rs1, hrun1, hresponses1, hresults1⟩ := run_streamPair_tile hgate1 hx1 hp1
  obtain ⟨t2, rs2, hrun2, hresponses2, hresults2⟩ := run_streamPair_tile hgate2 hx2 hp2
  exact ⟨t1, t2, rs1, rs2, hrun1, hresponses1, hrun2, hresponses2, by rw [hresults1, length_buildVec],
    hresults1.trans hresults2.symm⟩

end Sys2Proof.Machine
end
